-- ==== Sys2Proof/Word.lean ====
section
/-! DEFINITION. The widths of the hardware's values (R9 of `00_scope.md`): every value is unsigned. -/

namespace Sys2Proof

/-- A byte: 8 bits (R9). -/
abbrev Byte := BitVec 8

/-- A word: 32 bits, numbered 31 (most significant) down to 0 (R9).
`a +32 b` of R110 is `a + b` on words, `a xor b`, `a & b`, `a | b`, `~a` of R112 and R113 are the
bitwise operations on them. -/
abbrev Word := BitVec 32

/-- A dword: 64 bits (R9).  `a +64 b` of R120 is `a + b` on dwords. -/
abbrev DWord := BitVec 64

/-- `zeros(n)` of R10: `n` bytes of `0x00`. -/
def zeros (n : Nat) : List Byte := List.replicate n 0

end Sys2Proof
end

