-- ==== Sys2Proof/Machine/Operands.lean ====
section
/-! DEFINITION. The forms in which values cross a boundary: the byte-order primitives
(R52 to R54 of `20_memory.md`) and the fields of a command word (R81 of `30_encoding.md`).
Everything is big-endian (R55). -/

namespace Sys2Proof.Machine

/-- `be32(b0, b1, b2, b3)`: the word whose bits 31:24 are `b0`, ..., 7:0 are `b3` (R52). -/
def be32 (b0 b1 b2 b3 : Byte) : Word := b0 ++ b1 ++ b2 ++ b3

/-- `be32bytes(w)`: the four bytes of a word, most significant first (R53). -/
def be32bytes (w : Word) : List Byte :=
  [w.extractLsb' 24 8, w.extractLsb' 16 8, w.extractLsb' 8 8, w.extractLsb' 0 8]

/-- `be64bytes(d)`: the eight bytes of a dword, most significant first (R54). -/
def be64bytes (d : DWord) : List Byte :=
  [d.extractLsb' 56 8, d.extractLsb' 48 8, d.extractLsb' 40 8, d.extractLsb' 32 8,
   d.extractLsb' 24 8, d.extractLsb' 16 8, d.extractLsb' 8 8, d.extractLsb' 0 8]

/-- `op = CW[31:30]` (R81). -/
def opField (cw : Word) : BitVec 2 := cw.extractLsb' 30 2

/-- `len = CW[29:0]`, an unsigned byte count used as it stands (R81). -/
def lenField (cw : Word) : Nat := (cw.extractLsb' 0 30).toNat

end Sys2Proof.Machine
end

