-- ==== Sys2Proof/Config.lean ====
section
/-! DEFINITION. The fixed parameters of SM3CORE (R6 of `00_scope.md`), those the spec adds by decision
(R8), and the one parameter the spec leaves open, the number of instances.  The counts 64, 56, 32, 16,
8 of R6 (bytes of a block, of a digest, ...) stand as numerals where the spec's pseudocode has them. -/

namespace Sys2Proof

/-- The eight words of the initialization vector `IV[0..7]` (R6, R7).
PRESUMED (log 1): the spec itself takes the digits from general knowledge (G1). -/
def Config.iv0 : Word := 0x7380166F
/-- `IV[1]` (R6). -/
def Config.iv1 : Word := 0x4914B2B9
/-- `IV[2]` (R6). -/
def Config.iv2 : Word := 0x172442D7
/-- `IV[3]` (R6). -/
def Config.iv3 : Word := 0xDA8A0600
/-- `IV[4]` (R6). -/
def Config.iv4 : Word := 0xA96F30BC
/-- `IV[5]` (R6). -/
def Config.iv5 : Word := 0x163138AA
/-- `IV[6]` (R6). -/
def Config.iv6 : Word := 0xE38DEE4D
/-- `IV[7]` (R6). -/
def Config.iv7 : Word := 0xB0FB0E4E

/-- `T_LO`, the base round constant of rounds 0 to 15 (R6, R118). -/
def Config.tLo : Word := 0x79CC4519

/-- `T_HI`, the base round constant of rounds 16 to 63 (R6, R118). -/
def Config.tHi : Word := 0x7A879D8A

/-- `PAD_BYTE`, the first padding byte (R6, R55). -/
def Config.padByte : Byte := 0x80

/-- The largest payload of one UPDATE, `2^LEN_BITS - 1` with `LEN_BITS = 30` (R8, R84, D13). -/
abbrev Config.maxPayload : Nat := 1073741823

/-- `N_INST - 1`, where `N_INST` is the number of independent SM3CORE instances of a system.
The spec leaves it OPEN, "model argument, at least 1" (R8, D9): no value is fixed here (log 9). -/
opaque Config.extraInstances : Nat

/-- `N_INST` (R8): at least 1. -/
def Config.nInst : Nat := Config.extraInstances + 1

end Sys2Proof
end

