-- ==== Sys2Proof/Syntax.lean ====
section
/-! DEFINITION. The commands of the command port (R80 of `30_encoding.md`, R170 of
`42_context_commands.md`): one constructor per row of `opcode_table.json`. -/

namespace Sys2Proof

/-- `Command = INIT | UPDATE (data : byte sequence) | FINALIZE` (R170).  HASH is a pseudo-command and
has no word (R96), CF and ENC have no opcodes (R97): neither is here. -/
inductive Instr where
  /-- INIT: (re)initialize the context (R83, R171). -/
  | init
  /-- UPDATE with its payload: feed a chunk (R84, R172). -/
  | update (data : List Byte)
  /-- FINALIZE: produce the digest and reset the context (R85, R176). -/
  | finalize
deriving DecidableEq, Repr

/-- The payload bytes that follow the command word: `data` for UPDATE, none otherwise (R88). -/
def Instr.payload : Instr → List Byte
  | .init => []
  | .update data => data
  | .finalize => []

/-- The three kinds of reserved command word (R86). -/
inductive ReservedWord where
  /-- `op = 00`, any `len`. -/
  | opZero
  /-- `op = 01` and `len` not zero: the nearest command is INIT. -/
  | initWithLen
  /-- `op = 11` and `len` not zero: the nearest command is FINALIZE. -/
  | finalizeWithLen
deriving DecidableEq, Repr

end Sys2Proof
end

