-- ==== Sys2Proof/WellFormed.lean ====
section
/-! DEFINITION. When a command can be put on the command port: the payload of an UPDATE fits the 30-bit
length field (R81, R84 of `30_encoding.md`). -/

namespace Sys2Proof

/-- INIT and FINALIZE have no operand to check; UPDATE carries at most `2^30 - 1` bytes (R84). -/
def Instr.wf : Instr → Bool
  | .init => true
  | .update data => decide (data.length ≤ Config.maxPayload)
  | .finalize => true

end Sys2Proof
end

