-- ==== Sys2Proof/Decode.lean ====
section
/-! DEFINITION. Command decoding (R81 to R88 of `30_encoding.md`), total on any bytes, and the encoder. -/

namespace Sys2Proof

open Sys2Proof.Machine (be32 be32bytes opField lenField)

/-- What a command word says by itself (R82). -/
inductive CommandHead where
  | init
  | update (len : Nat)
  | finalize
  | reserved (why : ReservedWord)
deriving DecidableEq, Repr

/-- The opcode map: `op` first, then `len` (R82, R86). -/
def decodeWord (cw : Word) : CommandHead :=
  if opField cw = 0#2 then .reserved .opZero
  else if opField cw = 1#2 then (if lenField cw = 0 then .init else .reserved .initWithLen)
  else if opField cw = 2#2 then .update (lenField cw)
  else (if lenField cw = 0 then .finalize else .reserved .finalizeWithLen)

/-- What the decoder makes of the bytes waiting on the command port. -/
inductive Decoded where
  /-- A whole command, and the bytes after it (R88). -/
  | command (i : Instr) (rest : List Byte)
  /-- The first word is reserved: not a command, nothing is consumed (R86). -/
  | reserved (why : ReservedWord) (cw : Word)
  /-- The command word or its payload has not arrived in full (R88, R233). -/
  | incomplete
deriving DecidableEq, Repr

/-- The payload step of the decoder: the `n` bytes after an UPDATE word are data, whatever their values,
and the command is whole only when all of them are there (R88). -/
def decodePayload (n : Nat) (rest : List Byte) : Decoded :=
  if n ≤ rest.length then .command (.update (rest.take n)) (rest.drop n) else .incomplete

/-- Decode the first command of a byte stream whose command words are big-endian (R88, R89). -/
def decode : List Byte → Decoded
  | b0 :: b1 :: b2 :: b3 :: rest =>
    match decodeWord (be32 b0 b1 b2 b3) with
    | .init => .command .init rest
    | .update n => decodePayload n rest
    | .finalize => .command .finalize rest
    | .reserved why => .reserved why (be32 b0 b1 b2 b3)
  | _ => .incomplete

/-- The command word of a command: `0x40000000`, `0x80000000 | len`, `0xC0000000` (R83 to R85). -/
def encodeWord : Instr → Word
  | .init => 0x40000000
  | .update data => 0x80000000 ||| BitVec.ofNat 32 data.length
  | .finalize => 0xC0000000

/-- The bytes of a command on the command port: its word, most significant byte first, then its payload
in message order (R88, R89). -/
def encode (i : Instr) : List Byte := be32bytes (encodeWord i) ++ i.payload

/-- One row of the opcode map as `match` and `mask` (R82). -/
structure OpcodeRow where
  mnemonic : String
  word : Word
  mask : Word
deriving DecidableEq, Repr

/-- The three rows of `opcode_table.json` (R82, R97). -/
def opcodeRows : List OpcodeRow :=
  [⟨"INIT", 0x40000000, 0xFFFFFFFF⟩, ⟨"UPDATE", 0x80000000, 0xC0000000⟩,
   ⟨"FINALIZE", 0xC0000000, 0xFFFFFFFF⟩]

/-- A word `CW` selects a row when `CW & mask = match` (R82). -/
def OpcodeRow.selectedBy (r : OpcodeRow) (cw : Word) : Bool := decide (cw &&& r.mask = r.word)

/-- The bytes of a command given as a number whose bit 0 is the least significant bit of the command
word; payload byte `k` is bits `39 + 8k` down to `32 + 8k`, and every bit from `nbits` up is 0. -/
def tableBytes (nbits w : Nat) : List Byte :=
  let bits := w % 2 ^ nbits
  let cw := BitVec.ofNat 32 bits
  let n := match decodeWord cw with
    | .update len => len
    | _ => 0
  be32bytes cw ++ (List.range n).map fun k => BitVec.ofNat 8 (bits / 2 ^ (32 + 8 * k))

/-- The instruction the decoder reads from the bits `w` of a row of `opcode_table.json`. -/
def decodeTableWord (nbits w : Nat) : Option Instr :=
  match decode (tableBytes nbits w) with
  | .command i _ => some i
  | .reserved _ _ => none
  | .incomplete => none

end Sys2Proof
end

