-- ==== Sys2Proof/Machine/State.lean ====
section
/-! DEFINITION. The state of one SM3CORE instance: the context of `10_state.md` (R20, R21, R23, R24,
complete by R26) and its two ports (R80 of `30_encoding.md`); the reasons a step can stop; reset. -/

namespace Sys2Proof.Machine

/-- Eight words in state order: the chaining state `V[0..7]` (R20), and the operands and result of
`compress` (R140).  By position `v0` is `V[0]`, ..., `v7` is `V[7]`. -/
structure Chain where
  v0 : Word
  v1 : Word
  v2 : Word
  v3 : Word
  v4 : Word
  v5 : Word
  v6 : Word
  v7 : Word
deriving DecidableEq, Repr

/-- The eight words as a sequence `V[0], ..., V[7]` (R20). -/
def Chain.toList (x : Chain) : List Word := [x.v0, x.v1, x.v2, x.v3, x.v4, x.v5, x.v6, x.v7]

/-- `IV[0..7]`, wired values (R6, R29; log 1). -/
def Chain.iv : Chain :=
  ⟨Config.iv0, Config.iv1, Config.iv2, Config.iv3, Config.iv4, Config.iv5, Config.iv6, Config.iv7⟩

/-- The buffer `BUF` as a sparse list of cells (R21, R50).  An unlisted address reads as `0x00`, the
spec's reset contents (R35; log 6). -/
abbrev Memory := List Host.Cell

/-- The one form of a buffer: addresses strictly rising, all below 64 (R50), and no cell equal to what
an unlisted address reads as, so that equal buffers are equal data. -/
abbrev Memory.wf (m : Memory) : Prop :=
  m.Pairwise (fun x y => x.1 < y.1) ∧ ∀ c ∈ m, c.1 < 64 ∧ c.2 ≠ 0

/-- A 64-byte block, the second operand of `compress` (R51, R140). -/
abbrev Block := List Byte

/-- A digest, `D[0]` first: 32 bytes (R51, R93, R202; log 22). -/
abbrev Digest := List Byte

/-- The context, the only stateful entity (R20, R21, R23, R24, R26). -/
structure Context where
  /-- `V[0..7]`, the chaining state (R20). -/
  v : Chain
  /-- `BUF[0..63]`, the partial-block buffer (R21). -/
  buf : Memory
  /-- `USED`, the count of valid bytes in the buffer: 0 to 63 between commands (R23; log 20). -/
  used : Fin 64
  /-- `BITLEN`, the bits consumed so far modulo 2^64 (R24). -/
  bitLen : DWord
deriving DecidableEq, Repr

/-- The initialized state of a context (R30). -/
def Context.initialized : Context := { v := Chain.iv, buf := [], used := 0, bitLen := 0 }

/-- One SM3CORE instance: its context and its two ports (R29, R80). -/
structure State where
  /-- The context. -/
  ctx : Context
  /-- The command port: the bytes the host has presented and the machine has not yet taken, oldest
  first (R80, R88, R89; log 2). -/
  cmdPort : List Byte
  /-- The response port: the digests delivered and not yet taken, oldest first (R80, R93; log 4). -/
  respPort : List Digest
deriving DecidableEq, Repr

/-- Why a step could stop with a fault.  SM3CORE has no exception (R220); the one constructor stands for
an access that the spec says does not exist, and no state reaches it (log 7). -/
inductive Fault where
  /-- An access to `n` bytes of `BUF` from address `a` with `a + n > 64` (R50: no such address).  Raised by
  `memRead` and `memWrite`.  Safe: the model stops; and unreachable, since no rule issues one (R33). -/
  | bufferRange (a n : Nat)
deriving DecidableEq, Repr

/-- Why a step is refused. -/
inductive Refusal where
  /-- An instruction that has no meaning yet: raised by `exec` alone.  Safe. -/
  | notModelled (mnemonic : String)
  /-- The word on the command port is reserved (R86): it is not a command and the run has no meaning from
  there (R222, U3).  Raised by `step`.  Safe. -/
  | reservedWord (why : ReservedWord) (cw : Word)
deriving DecidableEq, Repr

/-- The machine right after reset: the initialized state, no command in progress, no response pending
(R35 of `10_state.md`, R250 of `70_reset_and_hazards.md`). -/
def State.reset : State := { ctx := Context.initialized, cmdPort := [], respPort := [] }

end Sys2Proof.Machine
end

