-- ==== Sys2Proof/Machine/Flags.lean ====
section
/-! DEFINITION. SM3CORE has no flags, condition codes or predicates (R25 of `10_state.md`): "The
conditions the rules test ... are computed where they are used and stored nowhere".  These are the
conditions that have a meaning beyond a comparison of lengths. -/

namespace Sys2Proof.Machine

/-- `j < 16` (`J_SWITCH`): the rounds that use `FF0`, `GG0` and `T_LO` (R116, R117, R118). -/
abbrev earlyRound (j : Nat) : Prop := j < 16

/-- `USED = 64`: the buffer holds a whole block; only inside a command (R23, R28). -/
abbrev bufferFull (used : Nat) : Prop := used = 64

/-- `64 - u < 8`: no room for the length field after `u` bytes of a block, so that FINALIZE spills into
a second block (R176, R180; `90_conflicts.md` C3 settles `< 8` against `≤ 8`). -/
abbrev spills (u : Nat) : Prop := 64 - u < 8

end Sys2Proof.Machine
end

