-- ==== Sys2Proof/Machine/WordPrims.lean ====
section
/-! DEFINITION. The word primitives of `40_word_primitives.md` (R110 to R122). -/

namespace Sys2Proof.Machine

/-- `rotl(x, n)`, the left rotation of a word (R111).  Total by reducing `n` modulo 32, as R122 allows;
no rule uses an amount above 31 (log 8). -/
def rotl (x : Word) (n : Nat) : Word := x.rotateLeft n

/-- `P0(x) = x xor rotl(x, 9) xor rotl(x, 17)` (R114). -/
def p0 (x : Word) : Word := x ^^^ rotl x 9 ^^^ rotl x 17

/-- `P1(x) = x xor rotl(x, 15) xor rotl(x, 23)` (R115). -/
def p1 (x : Word) : Word := x ^^^ rotl x 15 ^^^ rotl x 23

/-- `FF(j, x, y, z)`: parity before round 16, bitwise majority from it on (R116). -/
def ff (j : Nat) (x y z : Word) : Word :=
  if earlyRound j then x ^^^ y ^^^ z else (x &&& y) ||| (x &&& z) ||| (y &&& z)

/-- `GG(j, x, y, z)`: parity before round 16, bitwise choose from it on (R117). -/
def gg (j : Nat) (x y z : Word) : Word :=
  if earlyRound j then x ^^^ y ^^^ z else (x &&& y) ||| (~~~x &&& z)

/-- `T(j)`, the base round constant (R118). -/
def baseConst (j : Nat) : Word := if earlyRound j then Config.tLo else Config.tHi

/-- `TR(j) = rotl(T(j), j mod 32)`: rotated once, by the round index modulo 32 (R119;
`90_conflicts.md` C2). -/
def roundConst (j : Nat) : Word := rotl (baseConst j) (j % 32)

/-- `bits(n) = (8·n) mod 2^64` (R121). -/
def bits (n : Nat) : DWord := BitVec.ofNat 64 (8 * n)

end Sys2Proof.Machine
end

