-- ==== Sys2Proof/Machine/Compression.lean ====
section
/-! DEFINITION. CF, the compression engine (`41_compression.md`): message expansion, 64 rounds,
feed-forward.  `compress` is a pure function and no scratch is state (R27, R140, R153). -/

namespace Sys2Proof.Machine

/-- The byte `B[k]` of a block.  CTX only ever passes blocks of 64 bytes (R51; log 21). -/
def Block.byte (b : Block) (k : Nat) : Byte := b.getD k 0

/-- The word `W[j]` of a sequence of words. -/
def wordAt (w : List Word) (j : Nat) : Word := w.getD j 0

/-- CF.LOAD: `W[i] = be32(B[4i], B[4i+1], B[4i+2], B[4i+3])`, `i` from 0 to 15 (R141, R90). -/
def cfLoad (b : Block) : List Word :=
  (List.range 16).map fun i =>
    be32 (Block.byte b (4 * i)) (Block.byte b (4 * i + 1)) (Block.byte b (4 * i + 2)) (Block.byte b (4 * i + 3))

/-- One step of CF.EXPAND: `W[j]` from the words before it (R142). -/
def expandWord (w : List Word) (j : Nat) : Word :=
  p1 (wordAt w (j - 16) ^^^ wordAt w (j - 9) ^^^ rotl (wordAt w (j - 3)) 15)
    ^^^ rotl (wordAt w (j - 13)) 7 ^^^ wordAt w (j - 6)

/-- CF.EXPAND: `W[16..67]` in increasing order, behind the words already there (R142). -/
def cfExpand (w : List Word) : List Word :=
  (List.range' 16 52).foldl (fun w j => w ++ [expandWord w j]) w

/-- The 68 expanded words of a block (R141, R142). -/
def schedule (b : Block) : List Word := cfExpand (cfLoad b)

/-- CF.W1: `W1[j] = W[j] xor W[j+4]`, `j` from 0 to 63 (R143). -/
def cfW1 (w : List Word) : List Word :=
  (List.range 64).map fun j => wordAt w j ^^^ wordAt w (j + 4)

/-- The working variables `A..H` (R27, R144). -/
structure Working where
  a : Word
  b : Word
  c : Word
  d : Word
  e : Word
  f : Word
  g : Word
  h : Word
deriving DecidableEq, Repr

/-- CF.INIT: `(A, ..., H) <- (X[0], ..., X[7])` (R144). -/
def cfInit (x : Chain) : Working := ⟨x.v0, x.v1, x.v2, x.v3, x.v4, x.v5, x.v6, x.v7⟩

/-- `SS1` of round `j` (R145). -/
def ss1 (j : Nat) (r : Working) : Word := rotl (rotl r.a 12 + r.e + roundConst j) 7

/-- `SS2` of round `j` (R145). -/
def ss2 (j : Nat) (r : Working) : Word := ss1 j r ^^^ rotl r.a 12

/-- `TT1` of round `j`, which takes `W1[j]` (R145). -/
def tt1 (j : Nat) (w1j : Word) (r : Working) : Word := ff j r.a r.b r.c + r.d + ss2 j r + w1j

/-- `TT2` of round `j`, which takes `W[j]` (R145). -/
def tt2 (j : Nat) (wj : Word) (r : Working) : Word := gg j r.e r.f r.g + r.h + ss1 j r + wj

/-- CF.ROUND: every right-hand side is evaluated before any write (R145, R14). -/
def cfRound (j : Nat) (wj w1j : Word) (r : Working) : Working :=
  { a := tt1 j w1j r, b := r.a, c := rotl r.b 9, d := r.c,
    e := p0 (tt2 j wj r), f := r.e, g := rotl r.f 19, h := r.g }

/-- Rounds `0, 1, ..., n - 1` in that order (R145, R149). -/
def cfRounds (n : Nat) (w w1 : List Word) (r : Working) : Working :=
  (List.range n).foldl (fun r j => cfRound j (wordAt w j) (wordAt w1 j) r) r

/-- CF.FEED: the elementwise xor of the state that went in with `(A..H)` after round 63 (R148). -/
def cfFeed (x : Chain) (r : Working) : Chain :=
  { v0 := x.v0 ^^^ r.a, v1 := x.v1 ^^^ r.b, v2 := x.v2 ^^^ r.c, v3 := x.v3 ^^^ r.d,
    v4 := x.v4 ^^^ r.e, v5 := x.v5 ^^^ r.f, v6 := x.v6 ^^^ r.g, v7 := x.v7 ^^^ r.h }

/-- `compress(X, B)`: LOAD, EXPAND, W1, INIT, ROUND 0 to 63, FEED (R149, R150). -/
def compress (x : Chain) (b : Block) : Chain :=
  cfFeed x (cfRounds 64 (schedule b) (cfW1 (schedule b)) (cfInit x))

end Sys2Proof.Machine
end

