-- ==== Sys2Proof/Machine/Encoder.lean ====
section
/-! DEFINITION. ENC, the digest encoder (`43_digest_encoder.md`): pure, no state (R201). -/

namespace Sys2Proof.Machine

/-- `encode(X)`: each word big-endian, words in state order 0 to 7 (R200, R92). -/
def encodeDigest (x : Chain) : Digest := x.toList.flatMap be32bytes

end Sys2Proof.Machine
end

