-- ==== Sys2Proof/Machine/Ops.lean ====
section
/-! DEFINITION. The named operations over the buffer and the ports.  The hardware takes no exception and
returns from none (R226, R227 of `60_exceptions.md`), so there is no exception-taking operation; its
"return to a clean state" is `State.initialize`, shared by INIT and FINALIZE. -/

namespace Sys2Proof.Machine

/-! ## The buffer (R50 of `20_memory.md`) -/

/-- The byte at an address: `BUF[a]`. -/
def Memory.get : Memory → Nat → Byte
  | [], _ => 0
  | c :: m, a => if c.1 = a then c.2 else Memory.get m a

/-- Put a cell in its place among cells of rising address. -/
def Memory.insertCell (a : Nat) (b : Byte) : Memory → Memory
  | [] => [(a, b)]
  | c :: m => if a < c.1 then (a, b) :: c :: m else c :: Memory.insertCell a b m

/-- `BUF[a] <- b`.  Writing the value an unlisted address reads as removes the cell. -/
def Memory.set (m : Memory) (a : Nat) (b : Byte) : Memory :=
  if b = 0 then m.filter (fun c => c.1 ≠ a)
  else Memory.insertCell a b (m.filter (fun c => c.1 ≠ a))

/-- A run copy, one byte at a time in increasing index order (R57). -/
def writeRun : Nat → List Byte → Memory → Memory
  | _, [], m => m
  | a, b :: bs, m => writeRun (a + 1) bs (m.set a b)

/-- The `n` bytes from address `a` in index order (R50). -/
def readRun (a n : Nat) (m : Memory) : List Byte := (List.range n).map fun k => m.get (a + k)

/-- `MemWrite(a, n, s)` with `n` the length of `s`; needs `a + n ≤ 64` (R50; log 7). -/
def memWrite (a : Nat) (bs : List Byte) (m : Memory) : Except Fault Memory :=
  if a + bs.length ≤ 64 then .ok (writeRun a bs m) else .error (.bufferRange a bs.length)

/-- `MemRead(a, n)`; needs `a + n ≤ 64` (R50; log 7). -/
def memRead (a n : Nat) (m : Memory) : Except Fault (List Byte) :=
  if a + n ≤ 64 then .ok (readRun a n m) else .error (.bufferRange a n)

/-- `BUF[0..USED)`, the only meaningful bytes of the buffer between commands (R21). -/
def Context.tail (c : Context) : List Byte := readRun 0 c.used.val c.buf

/-! ## The context -/

/-- Write the context. -/
def State.setCtx (c : Context) (s : State) : State := { s with ctx := c }

/-- The writes INIT makes and FINALIZE closes with: `V <- IV`, `BUF` all zero, `USED <- 0`,
`BITLEN <- 0` (R171, R176, R30). -/
def State.initialize (s : State) : State := s.setCtx Context.initialized

/-! ## The ports (R80 of `30_encoding.md`) -/

/-- Take a command off the command port: what is left is `rest` (R88). -/
def State.consume (rest : List Byte) (s : State) : State := { s with cmdPort := rest }

/-- `respond(s)`: put a digest on the response port, behind those still pending (R93). -/
def State.respond (d : Digest) (s : State) : State := { s with respPort := s.respPort ++ [d] }

/-- Between commands, and while an UPDATE waits for its payload, the instance holds its state and does
nothing (R232, R233; log 3). -/
def State.hold (s : State) : State := s

/-! ## What the host does (R80, R93, R250); none of these is a step -/

/-- The host presents bytes on the command port, after those already there (R80, R89). -/
def State.deliver (bs : List Byte) (s : State) : State := { s with cmdPort := s.cmdPort ++ bs }

/-- The host takes the oldest pending response, if there is one (R93). -/
def State.takeResponse (s : State) : Option (Digest × State) :=
  match s.respPort with
  | [] => none
  | d :: ds => some (d, { s with respPort := ds })

/-- Hardware reset, from any state: the initialized state, no response pending, and the command in
progress cancelled with every byte on the command port (R250; log 11). -/
def State.hardwareReset (_ : State) : State := State.reset

/-! ## Outcomes -/

/-- A context transition as the outcome of a command: the new context, or the fault (none is reachable). -/
def finish (s : State) : Except Fault Context → Host.Outcome State Fault Refusal
  | .ok c => .next (s.setCtx c)
  | .error f => .fault f

end Sys2Proof.Machine
end

