-- ==== Sys2Proof/Machine/Context.lean ====
section
/-! DEFINITION. CTX, the streaming context (`42_context_commands.md`): the meanings of INIT, UPDATE and
FINALIZE, each one atomic transition (R170). -/

namespace Sys2Proof.Machine

/-! ## INIT -/

/-- INIT (R171): the initialized state whatever the context held; no response. -/
def execInit (s : State) : Host.Outcome State Fault Refusal := .next s.initialize

/-! ## UPDATE -/

/-- The local values of an UPDATE after its top-up: `V`, `BUF`, `USED`, and the payload not yet consumed,
`data[p..n)` (R172). -/
structure Absorbing where
  v : Chain
  buf : Memory
  used : Nat
  rest : List Byte
deriving DecidableEq, Repr

/-- "if `used>0`, first tops up `buffer` to 64 bytes from the front of `data`; if that completes a block,
compress it and reset `used=0`" (R172). -/
def topUp (data : List Byte) (c : Context) : Except Fault Absorbing :=
  if 0 < c.used.val then do
    let t := min (64 - c.used.val) data.length
    let buf ← memWrite c.used.val (data.take t) c.buf
    if bufferFull (c.used.val + t) then
      let block ← memRead 0 64 buf
      .ok { v := compress c.v block, buf := buf, used := 0, rest := data.drop t }
    else
      .ok { v := c.v, buf := buf, used := c.used.val + t, rest := data.drop t }
  else
    .ok { v := c.v, buf := c.buf, used := c.used.val, rest := data }

/-- "while at least 64 bytes of `data` remain, compress each 64-byte chunk directly without copying into
`buffer`" (R172): `k` turns of that loop, straight from the payload. -/
def absorbBlocks : Nat → Chain → List Byte → Chain × List Byte
  | 0, v, rest => (v, rest)
  | k + 1, v, rest => absorbBlocks k (compress v (rest.take 64)) (rest.drop 64)

/-- The rest of an UPDATE after its top-up: the whole blocks, then the tail into `BUF[0..r)` when `r > 0`;
with no tail `USED` stays as the top-up left it (R172; `90_conflicts.md` C7). -/
def absorbRest (bitLen : DWord) (a : Absorbing) : Except Fault Context :=
  let (v, tail) := absorbBlocks (a.rest.length / 64) a.v a.rest
  if 0 < tail.length then do
    let buf ← memWrite 0 tail a.buf
    .ok { v := v, buf := buf, used := Fin.ofNat 64 tail.length, bitLen := bitLen }
  else
    .ok { v := v, buf := a.buf, used := Fin.ofNat 64 a.used, bitLen := bitLen }

/-- UPDATE on a context (R172): `BITLEN` is updated once, by the whole chunk; an empty payload changes
nothing (R173). -/
def absorb (data : List Byte) (c : Context) : Except Fault Context :=
  if data.length = 0 then .ok c
  else do
    let a ← topUp data c
    absorbRest (c.bitLen + bits data.length) a

/-- UPDATE (R172): no response. -/
def execUpdate (data : List Byte) (s : State) : Host.Outcome State Fault Refusal :=
  finish s (absorb data s.ctx)

/-! ## FINALIZE -/

/-- Write the length field into `BUF[56..64)` and compress: the last block of a message (R176). -/
def compressLast (v : Chain) (bitLen : DWord) (buf : Memory) : Except Fault Chain := do
  let buf ← memWrite 56 (be64bytes bitLen) buf
  let block ← memRead 0 64 buf
  .ok (compress v block)

/-- The padding and the one or two final compressions of FINALIZE (R176, R180).  `u` is local: `USED` is
not updated while padding. -/
def padAndCompress (c : Context) : Except Fault Chain := do
  let buf ← memWrite c.used.val [Config.padByte] c.buf
  let u := c.used.val + 1
  if spills u then
    let buf ← memWrite u (zeros (64 - u)) buf
    let block ← memRead 0 64 buf
    let buf ← memWrite 0 (zeros 56) buf
    compressLast (compress c.v block) c.bitLen buf
  else
    let buf ← memWrite u (zeros (56 - u)) buf
    compressLast c.v c.bitLen buf

/-- FINALIZE (R176): pad, compress, encode, reset the context, respond, all in one transition (R225). -/
def execFinalize (s : State) : Host.Outcome State Fault Refusal :=
  match padAndCompress s.ctx with
  | .ok v => .next (s.initialize.respond (encodeDigest v))
  | .error f => .fault f

end Sys2Proof.Machine
end

