-- ==== Sys2Proof/Machine/Step.lean ====
section
/-! DEFINITION. One step of SM3CORE: take the next whole command off the command port and run it
(R60 of `20_memory.md`, R88 of `30_encoding.md`). -/

namespace Sys2Proof.Machine

/-- The command is taken off the port and executed as one transition (R170); a reserved word is refused
(R86, R222); an incomplete command holds the instance, which does nothing (R232, R233; log 3). -/
def step (s : State) : Host.Outcome State Fault Refusal :=
  match decode s.cmdPort with
  | .command i rest => exec i (s.consume rest)
  | .reserved why cw => .refused (.reservedWord why cw)
  | .incomplete => .next s.hold

/-- The state in which the command with bits `w` stands first on the command port, so that the next step
takes it (log 12). -/
def State.withFetchWord (s : State) (nbits w : Nat) : State :=
  { s with cmdPort := tableBytes nbits w ++ s.cmdPort }

end Sys2Proof.Machine
end

