-- ==== Sys2Proof/Machine/Bus.lean ====
section
/-! DEFINITION. The internal buses between the units as bit vectors (R94 of `30_encoding.md`, D14), most
significant first.  A view for a reader who models them; the machine does not use it (log 18). -/

namespace Sys2Proof.Machine

/-- `ST[255:0]` with `V[i] = ST[255−32i : 224−32i]` (R94). -/
def stateBus (x : Chain) : BitVec 256 :=
  x.v0 ++ x.v1 ++ x.v2 ++ x.v3 ++ x.v4 ++ x.v5 ++ x.v6 ++ x.v7

/-- Bytes packed most significant first into a number. -/
def packBytes (bs : List Byte) : Nat := bs.foldl (fun n b => 256 * n + b.toNat) 0

/-- `BLK[511:0]` with `B[k] = BLK[511−8k : 504−8k]` (R94). -/
def blockBus (b : Block) : BitVec 512 := BitVec.ofNat 512 (packBytes b)

/-- `DG[255:0]` with `D[k] = DG[255−8k : 248−8k]` (R93). -/
def digestBus (d : Digest) : BitVec 256 := BitVec.ofNat 256 (packBytes d)

end Sys2Proof.Machine
end

