-- ==== Sys2Proof/Machine/Reference.lean ====
section
/-! DEFINITION. The digest as a function of the whole message, with no context: the padded message (R91
of `30_encoding.md`), its blocks, `fold` (R31 of `10_state.md`) and `SM3(M)` (R182 of
`42_context_commands.md`); and the compression in a 16-word window that R149 allows.  The machine's step
uses none of them; claims compare the two. -/

namespace Sys2Proof.Machine

/-- The first `k` 64-byte pieces of a byte sequence. -/
def takeBlocks : Nat → List Byte → List Block
  | 0, _ => []
  | k + 1, m => m.take 64 :: takeBlocks k (m.drop 64)

/-- The whole 64-byte blocks of a byte sequence, in order; a last part shorter than a block is left out. -/
def blocksOf (m : List Byte) : List Block := takeBlocks (m.length / 64) m

/-- The part of a byte sequence after its whole blocks: the tail (R15). -/
def tailOf (m : List Byte) : List Byte := m.drop (64 * (m.length / 64))

/-- `fold(X, B0, B1, ...)`: the chaining value after the blocks, in order (R31). -/
def foldBlocks (x : Chain) (bs : List Block) : Chain := bs.foldl compress x

/-- `k = (55 − L) mod 64` taken in 0 to 63: the zero bytes of the padding (R91). -/
def padZeros (l : Nat) : Nat := (119 - l % 64) % 64

/-- `pad(M) = M ++ 80 ++ zeros(k) ++ be64bytes((8·L) mod 2^64)` (R91). -/
def pad (m : List Byte) : List Byte :=
  m ++ [Config.padByte] ++ zeros (padZeros m.length) ++ be64bytes (bits m.length)

/-- `SM3(M)` (R182). -/
def sm3 (m : List Byte) : Digest := encodeDigest (foldBlocks Chain.iv (blocksOf (pad m)))

/-- The last block or two blocks of a message, as FINALIZE lays them out from the context (R58 of
`20_memory.md`, R180): the tail, `0x80`, zeros and the length field. -/
def Context.finalBlocks (c : Context) : List Block :=
  if c.used.val ≤ 55 then
    [c.tail ++ [0x80] ++ zeros (55 - c.used.val) ++ be64bytes c.bitLen]
  else
    [c.tail ++ [0x80] ++ zeros (63 - c.used.val), zeros 56 ++ be64bytes c.bitLen]

/-- One round on a window `W[j..j+16)`: it uses `W[j]` and `W[j+4]`, makes `W[j+16]`, and slides (R149). -/
def windowRound (p : List Word × Working) (j : Nat) : List Word × Working :=
  (p.1.drop 1 ++ [expandWord p.1 16],
   cfRound j (wordAt p.1 0) (wordAt p.1 0 ^^^ wordAt p.1 4) p.2)

/-- The expansion "on the fly, four words ahead of the rounds, in a 16-word window" (R149, R27): no `W1`
array and never more than 16 expanded words. -/
def compressWindow (x : Chain) (b : Block) : Chain :=
  cfFeed x ((List.range 64).foldl windowRound (cfLoad b, cfInit x)).2

end Sys2Proof.Machine
end

