-- ==== Sys2Proof/Machine/Script.lean ====
section
/-! DEFINITION. Sequences of commands and of steps, and the pseudo-command HASH (R96 of `30_encoding.md`,
R204 of `43_digest_encoder.md`). -/

namespace Sys2Proof.Machine

/-- Execute commands one after another, in the order the host presents them (R60, R170). -/
def runCommands : List Instr → State → Host.Outcome State Fault Refusal
  | [], s => .next s
  | i :: is, s =>
    match exec i s with
    | .next s' => runCommands is s'
    | .fault f => .fault f
    | .refused r => .refused r

/-- `n` steps of the machine. -/
def runSteps : Nat → State → Host.Outcome State Fault Refusal
  | 0, s => .next s
  | n + 1, s =>
    match step s with
    | .next s' => runSteps n s'
    | .fault f => .fault f
    | .refused r => .refused r

/-- Cut a byte sequence into consecutive non-empty pieces of at most `size` bytes; `fuel` is at least its
length. -/
def pieces (size : Nat) : Nat → List Byte → List (List Byte)
  | 0, _ => []
  | fuel + 1, d => if d.length = 0 then [] else d.take size :: pieces size fuel (d.drop size)

/-- The payload of HASH as UPDATE commands: one, or several consecutive ones that split the payload in
order when it is longer than `2^30 - 1` bytes, or none when it is empty (R96; log 16). -/
def updatesOf (data : List Byte) : List Instr :=
  (pieces Config.maxPayload data.length data).map .update

/-- The expansion of `HASH data`: INIT, UPDATE, FINALIZE (R96, R204). -/
def hashCommands (data : List Byte) : List Instr := .init :: updatesOf data ++ [.finalize]

/-- The command stream of a script as bytes (R88, R89). -/
def encodeScript (is : List Instr) : List Byte := is.flatMap encode

end Sys2Proof.Machine
end

