-- ==== Sys2Proof/Machine/System.lean ====
section
/-! DEFINITION. A system of `N_INST` independent SM3CORE instances: "the product of `N_INST` independent
machines" (R64 of `20_memory.md`, R230 of `60_exceptions.md`; log 9). -/

namespace Sys2Proof.Machine

/-- The instances of a system; they share nothing (R29, R230). -/
structure System where
  insts : List State
deriving DecidableEq, Repr

/-- All instances after reset, each in its own initialized state (R230, R250). -/
def System.reset : System := { insts := List.replicate Config.nInst State.reset }

/-- Instance `k` takes one step.  Two points are the model's choice, for the spec leaves them open: an index
that names no instance moves nothing (log 9), and a step that instance `k` does not complete ends the run of
the whole system, the other instances included (log 23). -/
def System.stepAt (k : Nat) (y : System) : Host.Outcome System Fault Refusal :=
  match y.insts[k]? with
  | none => .next y
  | some s =>
    match step s with
    | .next s' => .next { insts := y.insts.set k s' }
    | .fault f => .fault f
    | .refused r => .refused r

/-- An interleaving: each entry names the instance that steps next (R64).  A refusal at one instance ends
it (log 23). -/
def System.run : List Nat → System → Host.Outcome System Fault Refusal
  | [], y => .next y
  | k :: ks, y =>
    match y.stepAt k with
    | .next y' => System.run ks y'
    | .fault f => .fault f
    | .refused r => .refused r

/-- The host of instance `k` presents bytes on that instance's own command port (R230). -/
def System.deliverAt (k : Nat) (bs : List Byte) (y : System) : System :=
  { insts := y.insts.modify k (State.deliver bs) }

end Sys2Proof.Machine
end

