-- ==== Sys2Proof/Safety.lean ====
section
/-! DEFINITION. What the claims mean by a good state, by equivalent contexts and by the message a
context has absorbed. -/

namespace Sys2Proof.Machine

/-- The structural invariant of a state: the buffer is in its canonical form with every address in 0 to 63
(R50), and every pending response is a whole digest of 32 bytes (R93, R202). -/
def State.Inv (s : State) : Prop := s.ctx.buf.wf ∧ ∀ d ∈ s.respPort, d.length = 32

/-- `BITLEN[2:0] = 0` and `USED = BITLEN[8:3]`: the counter counts whole bytes and agrees with the fill
count (R32 of `10_state.md`). -/
def Context.Counted (c : Context) : Prop :=
  c.bitLen.extractLsb' 0 3 = 0 ∧ c.used.val = (c.bitLen.extractLsb' 3 6).toNat

/-- Two contexts are equivalent when they agree on `V`, `USED`, `BITLEN` and `BUF[0..USED)`; they may
differ in the stale bytes at index `USED` and above (R175). -/
def Context.Equiv (c d : Context) : Prop :=
  c.v = d.v ∧ c.used = d.used ∧ c.bitLen = d.bitLen ∧ c.tail = d.tail

/-- Two instances are equivalent when their contexts are and their ports are equal (R175). -/
def State.Equiv (s t : State) : Prop :=
  s.ctx.Equiv t.ctx ∧ s.cmdPort = t.cmdPort ∧ s.respPort = t.respPort

/-- The context holds the absorbed message `m`: the four equations of R31 over the ghost value `M`. -/
def Context.Holds (c : Context) (m : List Byte) : Prop :=
  c.used.val = m.length % 64 ∧ c.tail = tailOf m ∧ c.bitLen = bits m.length ∧
    c.v = foldBlocks Chain.iv (blocksOf m)

/-- The absorbed message after a command: an UPDATE extends it, INIT and FINALIZE start anew (R31). -/
def absorbedAfter (m : List Byte) : Instr → List Byte
  | .init => []
  | .update data => m ++ data
  | .finalize => []

/-- The responses a command owes to the absorbed message: FINALIZE its digest (R182), INIT and UPDATE none
(R93). -/
def responsesDue (m : List Byte) : Instr → List Digest
  | .init => []
  | .update _ => []
  | .finalize => [sm3 m]

end Sys2Proof.Machine
end

