-- ==== Sys2Proof/Certificates/Slice0/Obligations.lean ====
section
/-! DEFINITION. The statements about SM3CORE, one per docstring; each names the rule of the spec it
formalises, or says that it is derived. -/

open Sys2Proof Sys2Proof.Machine

/-! ## Encoding -/

/-- Decoding an encoded command gives it back, with every payload the length field admits and whatever
bytes follow it on the port.  Derived from section 2 (formats, opcode map) and section 4 of
`30_encoding.md`. -/
def Obligations.CommandDecodeEncodeRoundTrip : Prop :=
  ∀ (i : Instr) (rest : List Byte), i.wf = true → decode (encode i ++ rest) = .command i rest

/-- The other direction: whatever decodes to a command is that command's own encoding followed by the
rest, and the command is well formed.  So each command has one word and no byte is lost.  Derived from
sections 2 and 4 of `30_encoding.md`. -/
def Obligations.DecodedCommandIsItsOwnEncoding : Prop :=
  ∀ (bs : List Byte) (i : Instr) (rest : List Byte),
    decode bs = .command i rest → i.wf = true ∧ bs = encode i ++ rest

/-- R82: the decoder, which looks at `op` first and then at `len`, selects a row exactly when
`CW & mask = match`; the rows are disjoint; the all-zero and the all-ones word are reserved. -/
def Obligations.OpcodeMapIsMaskAndMatch : Prop :=
  (∀ cw : Word,
    (decodeWord cw = .init ↔ cw &&& 0xFFFFFFFF = 0x40000000) ∧
    (∀ n, decodeWord cw = .update n ↔ cw &&& 0xC0000000 = 0x80000000 ∧ n = lenField cw) ∧
    (decodeWord cw = .finalize ↔ cw &&& 0xFFFFFFFF = 0xC0000000) ∧
    ((∃ why, decodeWord cw = .reserved why) ↔
      opField cw = 0 ∨ (opField cw = 1 ∧ lenField cw ≠ 0) ∨ (opField cw = 3 ∧ lenField cw ≠ 0)) ∧
    (opcodeRows.filter (fun r => r.selectedBy cw)).length ≤ 1) ∧
  (∃ why, decodeWord 0 = .reserved why) ∧ (∃ why, decodeWord 0xFFFFFFFF = .reserved why)

/-- R86: with a command word at the front of the port, the step is refused exactly when the word has
`op = 00`, or `op = 01` and `len ≠ 0`, or `op = 11` and `len ≠ 0`; the refusal names the word, and a refused
step has no next state, so nothing is executed, answered or consumed. -/
def Obligations.ReservedWordsAreRefused : Prop :=
  ∀ (s : State) (cw : Word) (rest : List Byte), s.cmdPort = be32bytes cw ++ rest →
    ((∃ why, step s = .refused (.reservedWord why cw)) ↔
      opField cw = 0 ∨ (opField cw = 1 ∧ lenField cw ≠ 0) ∨ (opField cw = 3 ∧ lenField cw ≠ 0)) ∧
    (∀ r, step s = .refused r → ∃ why, r = .reservedWord why cw)

/-- Words written out bit by bit from `30_encoding.md` sections 2 and 4 and `95_test_vectors.md` section 7
decode to the commands they stand for; the four payload bytes that look like INIT are payload. -/
def Obligations.WrittenOutWordsDecode : Prop :=
  decode [0x40, 0x00, 0x00, 0x00] = .command .init [] ∧
  decode [0x80, 0x00, 0x00, 0x03, 0x61, 0x62, 0x63] = .command (.update [0x61, 0x62, 0x63]) [] ∧
  decode [0x80, 0x00, 0x00, 0x04, 0x40, 0x00, 0x00, 0x00, 0xC0, 0x00, 0x00, 0x00] =
    .command (.update [0x40, 0x00, 0x00, 0x00]) [0xC0, 0x00, 0x00, 0x00] ∧
  decode [0xC0, 0x00, 0x00, 0x00] = .command .finalize [] ∧
  decode [0x40, 0x00, 0x00, 0x01] = .reserved .initWithLen 0x40000001

/-! ## The step and the ports -/

/-- A step runs the command that the front of the command port decodes to, with that command taken off the
port.  Derived from section 4 of `30_encoding.md` and section 6 of `20_memory.md`. -/
def Obligations.StepRunsTheDecodedCommand : Prop :=
  ∀ (s : State) (i : Instr) (rest : List Byte), i.wf = true → decode s.cmdPort = .command i rest →
    step s = exec i { s with cmdPort := rest }

/-- An UPDATE whose payload stops short has not executed: the instance is held, and exactly the arrival of
the missing bytes lets it execute.  Derived from section 5 of `60_exceptions.md` and section 4 of
`30_encoding.md`; that a held instance's step answers the same state is the model's choice (log 3). -/
def Obligations.ShortPayloadHoldsTheInstance : Prop :=
  ∀ (s : State) (data got missing : List Byte), data = got ++ missing → missing ≠ [] →
    data.length ≤ Config.maxPayload → s.cmdPort = be32bytes (encodeWord (.update data)) ++ got →
    step s = .next s ∧
    ∀ rest, step (s.deliver (missing ++ rest)) = exec (.update data) { s with cmdPort := rest }

/-- With less than one command word on the port the instance does nothing.  Derived from section 5 of
`60_exceptions.md` (between commands the block holds its four fields and does nothing) and section 4 of
`30_encoding.md`; that the step then answers the same state is the model's choice (log 3). -/
def Obligations.IdleInstanceDoesNothing : Prop :=
  ∀ s : State, s.cmdPort.length < 4 → step s = .next s

/-- A command presented while another waits or executes changes nothing about that one: whenever a step
completes a command, the same step with more bytes behind it completes the same command, and those bytes
still wait.  Derived from section 3 of `70_reset_and_hazards.md` (one command at a time: the result is as if
the host had waited). -/
def Obligations.LaterBytesWaitTheirTurn : Prop :=
  ∀ (s t : State) (bs : List Byte), decode s.cmdPort ≠ .incomplete → step s = .next t →
    step (s.deliver bs) = .next (t.deliver bs)

/-- Commands take effect one at a time in the order of the stream: as many steps as there are commands run
the script and leave what follows it on the port.  Derived from section 6 of `20_memory.md` and section 4
of `30_encoding.md`. -/
def Obligations.CommandStreamRunsInOrder : Prop :=
  ∀ (is : List Instr) (s : State) (rest : List Byte), (∀ i ∈ is, i.wf = true) →
    s.cmdPort = encodeScript is ++ rest →
    runSteps is.length s = runCommands is { s with cmdPort := rest }

/-- R170: every command is accepted in every state and completes in one transition; INIT and UPDATE put
nothing on the response port, FINALIZE exactly one response; the command port is not touched by the
command itself. -/
def Obligations.EveryCommandCompletes : Prop :=
  ∀ (i : Instr) (s : State), ∃ t out, exec i s = .next t ∧ t.cmdPort = s.cmdPort ∧
    t.respPort = s.respPort ++ out ∧
    ((i = .finalize ∧ ∃ d : Digest, out = [d]) ∨ (i ≠ .finalize ∧ out = []))

/-- R93: a FINALIZE puts one response behind those already there, the 32 digest bytes `D[0]` to `D[31]` in that
order, which are the encoding of `V` after its final blocks; INIT and UPDATE put none, after reset none is
pending, and on a 256-bit port byte `D[k]` is `DG[255-8k : 248-8k]`. -/
def Obligations.ResponsesAreWholeDigestsInOrder : Prop :=
  (∀ (s t : State), exec .finalize s = .next t →
    ∃ d : Digest, d = encodeDigest (foldBlocks s.ctx.v s.ctx.finalBlocks) ∧ d.length = 32 ∧
      t.respPort = s.respPort ++ [d]) ∧
  (∀ (i : Instr) (s t : State), i ≠ .finalize → exec i s = .next t → t.respPort = s.respPort) ∧
  State.reset.respPort = [] ∧
  (∀ (d : Digest), d.length = 32 →
    ∀ k, k < 32 → (digestBus d).extractLsb' (248 - 8 * k) 8 = d.getD k 0)

/-- R220: no step of the machine, from any state whatever, ends in a fault. -/
def Obligations.NoStepFaults : Prop :=
  ∀ (s : State) (f : Fault), step s ≠ .fault f

/-! ## Word primitives and byte order -/

/-- R111: `rotl` by 0 to 31 as arithmetic and bit by bit (bit `i` goes to bit `(i + n) mod 32`), and its
corner cases. -/
def Obligations.RotateLeftIsArithmeticRotation : Prop :=
  (∀ (x : Word) (n : Nat), n ≤ 31 →
    (n = 0 → rotl x n = x) ∧
    (1 ≤ n → (rotl x n).toNat = (x.toNat * 2 ^ n) % 2 ^ 32 + x.toNat / 2 ^ (32 - n)) ∧
    (∀ i, i < 32 → (rotl x n).getLsbD ((i + n) % 32) = x.getLsbD i) ∧
    rotl 0 n = 0 ∧ rotl 0xFFFFFFFF n = 0xFFFFFFFF) ∧
  (∀ hi lo : BitVec 16, rotl (hi ++ lo) 16 = lo ++ hi) ∧
  rotl 0x80000000 1 = 0x00000001 ∧ rotl 0x00000001 31 = 0x80000000 ∧
  rotl 0x12345678 16 = 0x56781234 ∧ rotl 0x7380166F 12 = 0x0166F738

/-- R114 and R115 bit by bit: bit `i` of `P0(x)` is the parity of bits `i`, `i - 9`, `i - 17` of `x` (modulo
32), and bit `i` of `P1(x)` that of bits `i`, `i - 15`, `i - 23`; their corner cases and examples. -/
def Obligations.PermutationsBitByBit : Prop :=
  (∀ (x : Word) (i : Nat), i < 32 →
    (p0 x).getLsbD i = ((x.getLsbD i).xor (x.getLsbD ((i + 23) % 32))).xor (x.getLsbD ((i + 15) % 32)) ∧
    (p1 x).getLsbD i = ((x.getLsbD i).xor (x.getLsbD ((i + 17) % 32))).xor (x.getLsbD ((i + 9) % 32))) ∧
  p0 0 = 0 ∧ p0 0xFFFFFFFF = 0xFFFFFFFF ∧ p0 1 = 0x00020201 ∧ p0 0x80000000 = 0x80010100 ∧
  p0 0x12345678 = 0xD6688234 ∧
  p1 0 = 0 ∧ p1 0xFFFFFFFF = 0xFFFFFFFF ∧ p1 1 = 0x00808001 ∧ p1 0x80000000 = 0x80404000 ∧
  p1 0x12345678 = 0x05014549

/-- R116, and beside it the definition of R117, bit by bit: parity of the three bits before round 16; from
round 16 on majority for `FF` and choose for `GG`, so that `FF` and `GG` are the same function before the
switch; and the examples of R116. -/
def Obligations.BooleanFunctionsBitByBit : Prop :=
  ff 0 0xF0F0F0F0 0xCCCCCCCC 0xAAAAAAAA = 0x96969696 ∧ ff 16 0xF0F0F0F0 0xCCCCCCCC 0xAAAAAAAA = 0xE8E8E8E8 ∧
  ff 0 0x7380166F 0x4914B2B9 0x172442D7 = 0x2DB0E601 ∧ ff 16 0x7380166F 0x4914B2B9 0x172442D7 = 0x530412FF ∧
  ∀ (j : Nat) (x y z : Word) (i : Nat), i < 32 →
    (j < 16 → (ff j x y z).getLsbD i = ((x.getLsbD i).xor (y.getLsbD i)).xor (z.getLsbD i) ∧
      ff j x y z = gg j x y z) ∧
    (16 ≤ j → (ff j x y z).getLsbD i =
        decide (2 ≤ (x.getLsbD i).toNat + (y.getLsbD i).toNat + (z.getLsbD i).toNat) ∧
      (gg j x y z).getLsbD i = (if x.getLsbD i then y.getLsbD i else z.getLsbD i))

/-- Derived (the spec's own inference in R117, "derived: from rule R113"): the two terms of `GG1` are
disjoint, so `|` may be replaced by `xor` or by `+32`. -/
def Obligations.ChooseTermsAreDisjoint : Prop :=
  ∀ (j : Nat) (x y z : Word), 16 ≤ j →
    gg j x y z = (x &&& y) ^^^ (~~~x &&& z) ∧ gg j x y z = (x &&& y) + (~~~x &&& z)

/-- Derived from section 4 of `40_word_primitives.md`: each rotated round constant is the one before rotated
by one bit, except at the switch to the second base constant; rounds 48 to 63 repeat rounds 16 to 31; and
four entries of the spec's table. -/
def Obligations.RoundConstantsFollowByOneRotation : Prop :=
  (∀ j, j < 63 → j ≠ 15 → roundConst (j + 1) = rotl (roundConst j) 1) ∧
  (∀ j, 16 ≤ j → j < 32 → roundConst (j + 32) = roundConst j) ∧
  roundConst 0 = 0x79CC4519 ∧ roundConst 15 = 0x228CBCE6 ∧ roundConst 16 = 0x9D8A7A87 ∧
  roundConst 32 = 0x7A879D8A

/-- R120 and R121: `BITLEN` advances by eight times the payload length, everything modulo 2^64, with the
carry dropped; the largest payload of one UPDATE adds `0x1FFFFFFF8`, unreduced. -/
def Obligations.BitCounterAddsModulo : Prop :=
  ∀ (a : DWord) (n : Nat), (bits n).toNat = (8 * n) % 2 ^ 64 ∧
    (a + bits n).toNat = (a.toNat + 8 * n) % 2 ^ 64 ∧
    (n ≤ Config.maxPayload → (bits n).toNat = 8 * n ∧ 8 * n ≤ 0x1FFFFFFF8)

/-- Derived from section 2 of `20_memory.md`: bytes to words, words to bytes and dwords to bytes are big-endian, and the first two
are inverse to each other. -/
def Obligations.ByteOrderIsBigEndian : Prop :=
  (∀ b0 b1 b2 b3 : Byte,
    (be32 b0 b1 b2 b3).toNat = b0.toNat * 2 ^ 24 + b1.toNat * 2 ^ 16 + b2.toNat * 2 ^ 8 + b3.toNat ∧
    be32bytes (be32 b0 b1 b2 b3) = [b0, b1, b2, b3]) ∧
  (∀ w : Word, ∃ b0 b1 b2 b3, be32bytes w = [b0, b1, b2, b3] ∧ be32 b0 b1 b2 b3 = w ∧
    ∀ k, k < 4 → ((be32bytes w).getD k 0).toNat = w.toNat / 2 ^ (24 - 8 * k) % 256) ∧
  (∀ d : DWord, (be64bytes d).length = 8 ∧
    ∀ k, k < 8 → ((be64bytes d).getD k 0).toNat = d.toNat / 2 ^ (56 - 8 * k) % 256)

/-! ## The buffer -/

/-- Derived from section 1 of `20_memory.md`: a write inside `BUF` stores `BUF[a+k] = s[k]` and nothing
else, and reading the run back gives it.  Two clauses are the model's: the canonical form `wf` that a write
keeps is the form it holds `BUF` in (log 6), and a run that leaves `BUF`, an access the spec says does not
occur, is the model's fault (log 7). -/
def Obligations.BufferReadAfterWrite : Prop :=
  ∀ (m : Memory) (a : Nat) (bs : List Byte),
    (a + bs.length ≤ 64 → ∃ m', memWrite a bs m = .ok m' ∧ memRead a bs.length m' = .ok bs ∧
      (∀ k, k < bs.length → m'.get (a + k) = bs.getD k 0) ∧
      (∀ i, i < a ∨ a + bs.length ≤ i → m'.get i = m.get i) ∧
      (m.wf → m'.wf)) ∧
    (64 < a + bs.length → memWrite a bs m = .error (.bufferRange a bs.length) ∧
      memRead a bs.length m = .error (.bufferRange a bs.length))

/-- The model's canonical form (log 6): two well-formed buffers that read the same everywhere are the same
data. -/
def Obligations.BufferFormIsCanonical : Prop :=
  ∀ m m' : Memory, m.wf → m'.wf → (∀ i, i < 64 → m.get i = m'.get i) → m = m'

/-! ## CF, the compression engine -/

/-- R141 and R143: the first 16 expanded words are the block read big-endian, and `W1[j] = W[j] xor W[j+4]`
for `j` from 0 to 63. -/
def Obligations.BlockLoadsAndDerivedWords : Prop :=
  ∀ b : Block,
    (∀ i, i < 16 → wordAt (schedule b) i =
      be32 (b.getD (4 * i) 0) (b.getD (4 * i + 1) 0) (b.getD (4 * i + 2) 0) (b.getD (4 * i + 3) 0)) ∧
    (cfW1 (schedule b)).length = 64 ∧
    (∀ j, j < 64 →
      wordAt (cfW1 (schedule b)) j = wordAt (schedule b) j ^^^ wordAt (schedule b) (j + 4))

/-- R142: the 68 expanded words satisfy the recurrence for `j` from 16 to 67, the expansion is linear over
xor, and an all-zero block expands to 68 zero words. -/
def Obligations.ExpansionRecurrenceIsLinear : Prop :=
  (∀ b : Block, (schedule b).length = 68 ∧
    ∀ j, 16 ≤ j → j < 68 → wordAt (schedule b) j =
      p1 (wordAt (schedule b) (j - 16) ^^^ wordAt (schedule b) (j - 9) ^^^ rotl (wordAt (schedule b) (j - 3)) 15)
        ^^^ rotl (wordAt (schedule b) (j - 13)) 7 ^^^ wordAt (schedule b) (j - 6)) ∧
  (∀ b c : Block, b.length = 64 → c.length = 64 →
    schedule (List.zipWith (· ^^^ ·) b c) = List.zipWith (· ^^^ ·) (schedule b) (schedule c)) ∧
  schedule (zeros 64) = List.replicate 68 0

/-- Derived from section 3 of `41_compression.md` (the specialised rounds): a round with everything
substituted, for `j` from 0 to 15 and for `j` from 16 to 63, where the rotation amount of rounds 32 to 63 is
`j - 32`; and rounds run in increasing order of `j`, the first from the working variables they are given. -/
def Obligations.RoundsSpecialised : Prop :=
  (∀ (j : Nat) (wj w1j : Word) (r : Working), j < 64 →
    ∃ s1 s2 t1 t2 : Word,
      s1 = rotl (rotl r.a 12 + r.e +
        (if j < 16 then rotl 0x79CC4519 j else if j < 32 then rotl 0x7A879D8A j else rotl 0x7A879D8A (j - 32))) 7 ∧
      s2 = s1 ^^^ rotl r.a 12 ∧
      t1 = (if j < 16 then r.a ^^^ r.b ^^^ r.c else (r.a &&& r.b) ||| (r.a &&& r.c) ||| (r.b &&& r.c))
        + r.d + s2 + w1j ∧
      t2 = (if j < 16 then r.e ^^^ r.f ^^^ r.g else (r.e &&& r.f) ||| (~~~r.e &&& r.g)) + r.h + s1 + wj ∧
      cfRound j wj w1j r = ⟨t1, r.a, rotl r.b 9, r.c, p0 t2, r.e, rotl r.f 19, r.g⟩) ∧
  (∀ (w w1 : List Word) (r : Working), cfRounds 0 w w1 r = r) ∧
  (∀ (n : Nat) (w w1 : List Word) (r : Working),
    cfRounds (n + 1) w w1 r = cfRound n (wordAt w n) (wordAt w1 n) (cfRounds n w w1 r))

/-- R148 on words: each word of the result is the word that went in xor the working variable of the same
position after round 63. -/
def Obligations.CompressFeedsForward : Prop :=
  ∀ (x : Chain) (b : Block), ∃ r : Working,
    r = cfRounds 64 (schedule b) (cfW1 (schedule b)) ⟨x.v0, x.v1, x.v2, x.v3, x.v4, x.v5, x.v6, x.v7⟩ ∧
    (compress x b).toList =
      List.zipWith (· ^^^ ·) x.toList [r.a, r.b, r.c, r.d, r.e, r.f, r.g, r.h]

/-- Derived (the spec's own inference in R149): computing the expansion on the fly in a 16-word window, with
no `W1` array, is the same function. -/
def Obligations.WindowedCompressionAgrees : Prop :=
  ∀ (x : Chain) (b : Block), compressWindow x b = compress x b

/-! ## ENC, the digest encoder -/

/-- R200 and R92: the digest has 32 bytes, `D[4i+k] = X[i][31-8k : 24-8k]`, and `encode` is a bijection between
eight-word sequences and 32-byte sequences. -/
def Obligations.DigestEncodingIsBigEndianBijection : Prop :=
  (∀ x : Chain, (encodeDigest x).length = 32 ∧
    ∀ i k, i < 8 → k < 4 →
      (encodeDigest x).getD (4 * i + k) 0 = (wordAt x.toList i).extractLsb' (24 - 8 * k) 8) ∧
  (∀ x y : Chain, encodeDigest x = encodeDigest y → x = y) ∧
  (∀ d : Digest, d.length = 32 → ∃ x, encodeDigest x = d)

/-- Derived (the spec's own inference in R94): with the most-significant-first packing the encoder is wiring,
`DG = ST` bit for bit, and word `W[i]` of a block is `BLK[511-32i : 480-32i]`, word `V[i]` of a state
`ST[255-32i : 224-32i]`. -/
def Obligations.EncoderIsWiringOnTheBuses : Prop :=
  (∀ x : Chain, digestBus (encodeDigest x) = stateBus x ∧
    ∀ i, i < 8 → (stateBus x).extractLsb' (224 - 32 * i) 32 = wordAt x.toList i) ∧
  (∀ b : Block, b.length = 64 →
    (∀ k, k < 64 → (blockBus b).extractLsb' (504 - 8 * k) 8 = b.getD k 0) ∧
    ∀ i, i < 16 → (blockBus b).extractLsb' (480 - 32 * i) 32 = wordAt (schedule b) i)

/-! ## Reset and INIT -/

/-- R35: every field after hardware reset.  The digits of `IV` are the spec's own general knowledge
(R7, log 1). -/
def Obligations.ResetValues : Prop :=
  State.reset.ctx.v.toList =
    [0x7380166F, 0x4914B2B9, 0x172442D7, 0xDA8A0600, 0xA96F30BC, 0x163138AA, 0xE38DEE4D, 0xB0FB0E4E] ∧
  (∀ i, i < 64 → State.reset.ctx.buf.get i = 0) ∧ State.reset.ctx.used.val = 0 ∧
  State.reset.ctx.bitLen = 0 ∧ State.reset.respPort = []

/-- R171: INIT leaves the initialized state whatever the context held, answers nothing and touches no port; on
an initialized context it changes nothing, and two in a row equal one.  The digits of `IV` are the spec's own
general knowledge (R7, log 1). -/
def Obligations.InitGivesTheInitializedState : Prop :=
  (∀ s : State, ∃ t, exec .init s = .next t ∧
    t.ctx.v.toList =
      [0x7380166F, 0x4914B2B9, 0x172442D7, 0xDA8A0600, 0xA96F30BC, 0x163138AA, 0xE38DEE4D, 0xB0FB0E4E] ∧
    (∀ i, t.ctx.buf.get i = 0) ∧ t.ctx.used.val = 0 ∧ t.ctx.bitLen = 0 ∧
    t.ctx = Context.initialized ∧ t.cmdPort = s.cmdPort ∧ t.respPort = s.respPort) ∧
  (∀ s : State, s.ctx = Context.initialized → exec .init s = .next s) ∧
  (∀ s : State, runCommands [.init, .init] s = exec .init s)

/-- Derived from section 1 of `70_reset_and_hazards.md`: hardware reset from any state is observably an INIT
that also cancels the command in progress and every pending response.  That the bytes waiting on the
command port go with it is the model's reading (log 11). -/
def Obligations.HardwareResetIsInitThatCancels : Prop :=
  ∀ s t : State, exec .init s = .next t →
    s.hardwareReset = { t with cmdPort := [], respPort := [] } ∧ s.hardwareReset = State.reset

/-! ## UPDATE -/

/-- R173: UPDATE with an empty payload changes nothing and answers nothing, and any such UPDATE may be
inserted anywhere in a command stream without effect. -/
def Obligations.EmptyUpdateIsNoOp : Prop :=
  (∀ s : State, exec (.update []) s = .next s) ∧
  (∀ (is js : List Instr) (s : State),
    runCommands (is ++ .update [] :: js) s = runCommands (is ++ js) s)

/-- Derived (the spec's own case table R174 of UPDATE): what UPDATE does to every field, from every state.
`V` is the fold of the blocks of the buffered tail followed by the payload, `floor((u0+n)/64)` of them in
order; `USED` is `(u0+n) mod 64`; `BITLEN` advances by `bits(n)`; every byte of `BUF` is said: the bytes
stored at `BUF[u0..)` by the copy or the top-up, the tail at `BUF[0..r)`, and every other byte is unchanged;
both ports are unchanged. -/
def Obligations.UpdateCaseTableAndFrame : Prop :=
  ∀ (s : State) (data : List Byte), ∃ t, exec (.update data) s = .next t ∧
    t.cmdPort = s.cmdPort ∧ t.respPort = s.respPort ∧
    t.ctx.bitLen = s.ctx.bitLen + bits data.length ∧
    t.ctx.used.val = (s.ctx.used.val + data.length) % 64 ∧
    t.ctx.v = foldBlocks s.ctx.v (blocksOf (s.ctx.tail ++ data)) ∧
    (blocksOf (s.ctx.tail ++ data)).length = (s.ctx.used.val + data.length) / 64 ∧
    ∀ i, t.ctx.buf.get i =
      if s.ctx.used.val + data.length < 64 then
        if s.ctx.used.val ≤ i ∧ i < s.ctx.used.val + data.length then data.getD (i - s.ctx.used.val) 0
        else s.ctx.buf.get i
      else if i < (s.ctx.used.val + data.length) % 64 then
        data.getD (data.length - (s.ctx.used.val + data.length) % 64 + i) 0
      else if 0 < s.ctx.used.val ∧ s.ctx.used.val ≤ i ∧ i < 64 then data.getD (i - s.ctx.used.val) 0
      else s.ctx.buf.get i

/-- Derived (the spec's own inference R31): the absorbed message.  From the initialized state, after any
UPDATEs whose payloads concatenate to `M`, the context holds exactly what R31 says of `M`, and the ports are
untouched. -/
def Obligations.ContextHoldsTheAbsorbedMessage : Prop :=
  ∀ (s : State) (cs : List (List Byte)), s.ctx = Context.initialized →
    ∃ t, runCommands (cs.map .update) s = .next t ∧
      t.ctx.used.val = cs.flatten.length % 64 ∧ t.ctx.tail = tailOf cs.flatten ∧
      t.ctx.bitLen = bits cs.flatten.length ∧
      t.ctx.v = foldBlocks Chain.iv (blocksOf cs.flatten) ∧
      t.cmdPort = s.cmdPort ∧ t.respPort = s.respPort

/-- Derived (the spec's own inference R175): streaming equivalence.  `UPDATE x` then `UPDATE y` and
`UPDATE (x ++ y)` lead from equivalent states to equivalent states; equivalent states stay equivalent under
every command and give the same responses. -/
def Obligations.StreamingEquivalence : Prop :=
  ∀ s t : State, s.Equiv t →
    (∀ x y : List Byte, ∃ s' t', runCommands [.update x, .update y] s = .next s' ∧
      exec (.update (x ++ y)) t = .next t' ∧ s'.Equiv t') ∧
    (∀ i : Instr, ∃ s' t', exec i s = .next s' ∧ exec i t = .next t' ∧ s'.Equiv t')

/-- Derived (the spec's own inference in R175): an UPDATE of `n` bytes is equivalent to `n` UPDATEs of one
byte each. -/
def Obligations.ByteSerialFeedingIsEquivalent : Prop :=
  ∀ (s : State) (data : List Byte), ∃ t u,
    runCommands (data.map fun b => .update [b]) s = .next t ∧
    exec (.update data) s = .next u ∧ t.Equiv u

/-! ## FINALIZE and the digest -/

/-- R176 and R180: FINALIZE from every state.  It compresses one block when `USED ≤ 55` and two when
`USED ≥ 56`, laid out byte for byte as the rules say with the length field taken from `BITLEN` on entry;
answers the encoded result behind the responses already pending; leaves the initialized state; and does not
touch the command port. -/
def Obligations.FinalizePadsCompressesResponds : Prop :=
  ∀ s : State,
    (s.ctx.used.val ≤ 55 →
      exec .finalize s = .next
        { ctx := Context.initialized, cmdPort := s.cmdPort,
          respPort := s.respPort ++ [encodeDigest (compress s.ctx.v
            (s.ctx.tail ++ [0x80] ++ zeros (55 - s.ctx.used.val) ++ be64bytes s.ctx.bitLen))] }) ∧
    (56 ≤ s.ctx.used.val →
      exec .finalize s = .next
        { ctx := Context.initialized, cmdPort := s.cmdPort,
          respPort := s.respPort ++ [encodeDigest (compress
            (compress s.ctx.v (s.ctx.tail ++ [0x80] ++ zeros (63 - s.ctx.used.val)))
            (zeros 56 ++ be64bytes s.ctx.bitLen))] })

/-- R183: FINALIZE leaves a context that is immediately reusable: a message fed after it gives the digest
that a freshly reset instance gives for that message. -/
def Obligations.FinalizedContextIsReusable : Prop :=
  ∀ (s s' : State) (cs : List (List Byte)), exec .finalize s = .next s' →
    s'.ctx = Context.initialized ∧
    ∃ t u d, runCommands (cs.map .update ++ [.finalize]) s' = .next t ∧
      runCommands (cs.map .update ++ [.finalize]) State.reset = .next u ∧
      t.respPort = s'.respPort ++ [d] ∧ u.respPort = [d]

/-- R184: the second of two FINALIZEs, and one straight after reset or INIT, answers the digest of the empty
message; it is `SM3` of the empty sequence and its 32 bytes are the spec's. -/
def Obligations.SecondFinalizeAnswersTheEmptyDigest : Prop :=
  let empty : Digest :=
    [0x1a, 0xb2, 0x1d, 0x83, 0x55, 0xcf, 0xa1, 0x7f, 0x8e, 0x61, 0x19, 0x48, 0x31, 0xe8, 0x1a, 0x8f,
     0x22, 0xbe, 0xc8, 0xc7, 0x28, 0xfe, 0xfb, 0x74, 0x7e, 0xd0, 0x35, 0xeb, 0x50, 0x82, 0xaa, 0x2b]
  sm3 [] = empty ∧
  (∀ s : State, ∃ t d, runCommands [.finalize, .finalize] s = .next t ∧
    t.respPort = s.respPort ++ [d, empty]) ∧
  (∀ s : State, ∃ t, runCommands [.init, .finalize] s = .next t ∧ t.respPort = s.respPort ++ [empty]) ∧
  (∃ t, exec .finalize State.reset = .next t ∧ t.respPort = [empty])

/-- R91: the padded message is `M`, `0x80`, the least number of zeros that makes the length a multiple of 64,
and the big-endian bit length; its length in both cases. -/
def Obligations.PaddingIsMinimal : Prop :=
  ∀ m : List Byte, ∃ k, k < 64 ∧
    pad m = m ++ [0x80] ++ zeros k ++ be64bytes (bits m.length) ∧
    (m.length + 1 + k + 8) % 64 = 0 ∧
    (∀ k', (m.length + 1 + k' + 8) % 64 = 0 → k ≤ k') ∧
    (m.length % 64 ≤ 55 → (pad m).length = 64 * (m.length / 64 + 1)) ∧
    (56 ≤ m.length % 64 → (pad m).length = 64 * (m.length / 64 + 2))

/-- Derived (the spec's own inferences R181 and R185).  From every state, FINALIZE answers the encoded fold of
its one or two final blocks, and UPDATE folds the whole blocks of the buffered tail followed by the payload.
When the context holds the absorbed message `M`, the blocks folded so far and FINALIZE's are exactly the
padded message cut into 64-byte blocks, `floor((L+8)/64) + 1` of them: an UPDATE leaves `V` the fold of the
whole blocks of the longer message, and FINALIZE answers the encoded fold of the blocks of the padded one. -/
def Obligations.CompressedBlocksAreThePaddedMessage : Prop :=
  ∀ s : State,
    (∃ t, exec .finalize s = .next t ∧
      t.respPort = s.respPort ++ [encodeDigest (foldBlocks s.ctx.v s.ctx.finalBlocks)]) ∧
    (∀ data, ∃ u, exec (.update data) s = .next u ∧
      u.ctx.v = foldBlocks s.ctx.v (blocksOf (s.ctx.tail ++ data))) ∧
    ∀ m : List Byte,
      s.ctx.used.val = m.length % 64 → s.ctx.tail = tailOf m → s.ctx.bitLen = bits m.length →
      blocksOf m ++ s.ctx.finalBlocks = blocksOf (pad m) ∧
      (blocksOf (pad m)).flatten = pad m ∧
      (blocksOf (pad m)).length = (m.length + 8) / 64 + 1 ∧
      (s.ctx.v = foldBlocks Chain.iv (blocksOf m) →
        (∀ data, ∃ u, exec (.update data) s = .next u ∧
          u.ctx.v = foldBlocks Chain.iv (blocksOf (m ++ data))) ∧
        ∃ t, exec .finalize s = .next t ∧
          t.respPort = s.respPort ++ [encodeDigest (foldBlocks Chain.iv (blocksOf (pad m)))])

/-- Derived (the spec's own inference R182), the headline: from the initialized state, however a message is
cut into UPDATEs, FINALIZE answers `SM3` of the whole message and leaves the initialized state. -/
def Obligations.ChunkedMessageGivesItsDigest : Prop :=
  ∀ (s : State) (cs : List (List Byte)), s.ctx = Context.initialized →
    runCommands (cs.map .update ++ [.finalize]) s =
      .next { ctx := Context.initialized, cmdPort := s.cmdPort, respPort := s.respPort ++ [sm3 cs.flatten] }

/-- Derived from section 2 of `43_digest_encoder.md` and section 6 of `30_encoding.md`: HASH is INIT, UPDATEs and
FINALIZE; its commands all fit the port; from every state, a message in progress or not, they answer `SM3`
of the payload, exactly as INIT, one UPDATE and FINALIZE would.  How an empty or an over-long payload is
split is the model's choice among those the spec allows (log 16). -/
def Obligations.HashAnswersTheMessageDigest : Prop :=
  ∀ (s : State) (data : List Byte),
    (∀ i ∈ hashCommands data, i.wf = true) ∧
    runCommands (hashCommands data) s =
      .next { ctx := Context.initialized, cmdPort := s.cmdPort, respPort := s.respPort ++ [sm3 data] } ∧
    runCommands [.init, .update data, .finalize] s = runCommands (hashCommands data) s

/-- Derived from sections 4 and 6 of `30_encoding.md` and section 2 of `43_digest_encoder.md`, the whole machine
end to end: with the byte stream of HASH on the command port, as many steps as it has commands leave the
digest of the payload on the response port and what followed the stream on the command port.  The stream is
one of the expansions of HASH that the spec allows: how an empty or an over-long payload is split is the
model's choice (log 16). -/
def Obligations.HashStreamStepsToTheDigest : Prop :=
  ∀ (s : State) (data rest : List Byte),
    s.cmdPort = encodeScript (hashCommands data) ++ rest →
    runSteps (hashCommands data).length s =
      .next { ctx := Context.initialized, cmdPort := rest, respPort := s.respPort ++ [sm3 data] }

/-! ## Invariants -/

/-- Every step keeps the structural invariant: the buffer canonical with all addresses below 64, every pending
response 32 bytes long.  Derived from section 1 of `20_memory.md` and section 5 of `30_encoding.md`; the
canonical form is the model's (log 6). -/
def Obligations.EveryStepKeepsTheStructuralInvariant : Prop :=
  ∀ s t : State, s.Inv → step s = .next t → t.Inv

/-- Derived (the spec's own inference R32): every step keeps `BITLEN[2:0] = 0` and `USED = BITLEN[8:3]`, also
across the wrap of the counter. -/
def Obligations.EveryStepKeepsFillAndCounterTogether : Prop :=
  ∀ s t : State, s.ctx.Counted → step s = .next t → t.ctx.Counted

/-- The state after reset meets both invariants, and what the host can do keeps them: presenting bytes,
taking a response, hardware reset.  Derived from sections 5 and 6 of `10_state.md` and, for the 32 bytes of a
response, section 5 of `30_encoding.md`.  Two points are the model's: the canonical buffer form (log 6) and
that hardware reset empties both ports (log 11). -/
def Obligations.ResetAndHostMeetTheInvariants : Prop :=
  State.reset.Inv ∧ State.reset.ctx.Counted ∧
  ∀ s : State, s.Inv → s.ctx.Counted →
    (∀ bs, (s.deliver bs).Inv ∧ (s.deliver bs).ctx.Counted) ∧
    (∀ d t, s.takeResponse = some (d, t) → d.length = 32 ∧ t.Inv ∧ t.ctx.Counted) ∧
    s.hardwareReset.Inv ∧ s.hardwareReset.ctx.Counted

/-! ## Several instances -/

/-- Derived from section 6 of `20_memory.md`: any interleaving of the steps of the instances of a system
gives each instance what it gets running alone for as many steps; and an interleaving completes whenever each
instance alone completes.  That a step of an index naming no instance moves nothing is the model's choice
(log 9), and so is that an interleaving ends where one instance is refused (log 23). -/
def Obligations.InstancesAreIndependent : Prop :=
  (∀ (ks : List Nat) (y y' : System), System.run ks y = .next y' →
    y'.insts.length = y.insts.length ∧
    ∀ (k : Nat) (s : State), y.insts[k]? = some s →
      ∃ s', y'.insts[k]? = some s' ∧ runSteps (ks.count k) s = .next s') ∧
  (∀ (ks : List Nat) (y : System),
    (∀ (k : Nat) (s : State), y.insts[k]? = some s → ∃ s', runSteps (ks.count k) s = .next s') →
    ∃ y', System.run ks y = .next y')

/-- Derived from section 5 of `60_exceptions.md` and section 1 of `70_reset_and_hazards.md`: after reset a
system has `N_INST ≥ 1` instances, each in its own reset state; bytes presented to one instance arrive on its
command port and reach no other, and the number of instances stays.  The value of `N_INST` is open (R8,
log 9). -/
def Obligations.SystemResetsEveryInstance : Prop :=
  System.reset.insts.length = Config.nInst ∧ 1 ≤ Config.nInst ∧
  (∀ s ∈ System.reset.insts, s = State.reset) ∧
  ∀ (k : Nat) (bs : List Byte) (y : System),
    (y.deliverAt k bs).insts.length = y.insts.length ∧
    (y.deliverAt k bs).insts[k]? = y.insts[k]?.map (State.deliver bs) ∧
    (∀ i, i ≠ k → (y.deliverAt k bs).insts[i]? = y.insts[i]?)

/-- A step of instance `k` of a system is the step of that instance alone: it completes exactly when the
instance's own step does, puts that state in place `k`, and leaves every other instance and their number as
they were.  Derived from section 6 of `20_memory.md` and section 5 of `60_exceptions.md`.  Two points are the
model's: an index that names no instance moves nothing (log 9), and a refusal at one instance ends the run of
the system (log 23). -/
def Obligations.SystemStepMovesOneInstance : Prop :=
  ∀ (k : Nat) (y : System),
    (∀ s, y.insts[k]? = some s →
      (∀ s', step s = .next s' → ∃ y', y.stepAt k = .next y' ∧ y'.insts[k]? = some s') ∧
      (∀ r, step s = .refused r → y.stepAt k = .refused r)) ∧
    (y.insts[k]? = none → y.stepAt k = .next y) ∧
    ∀ y', y.stepAt k = .next y' →
      (∀ s, y.insts[k]? = some s → ∃ s', step s = .next s' ∧ y'.insts[k]? = some s') ∧
      y'.insts.length = y.insts.length ∧ ∀ i, i ≠ k → y'.insts[i]? = y.insts[i]?

/-! ## The absorbed message, step by step -/

/-- Derived (the spec's own inferences R31 and R182): from every state whose context holds a message `m`,
reached or not, a step either finds no whole command on the port and changes nothing (log 3), or takes one
off, leaves a context that holds what that command makes of the message (extended by an UPDATE, empty after
INIT and FINALIZE), and answers what is due: the digest of `m` for FINALIZE, nothing otherwise. -/
def Obligations.EveryStepFollowsTheAbsorbedMessage : Prop :=
  ∀ (s t : State) (m : List Byte), s.ctx.Holds m → step s = .next t →
    (decode s.cmdPort = .incomplete ∧ t = s) ∨
    ∃ i rest, decode s.cmdPort = .command i rest ∧ t.cmdPort = rest ∧
      t.ctx.Holds (absorbedAfter m i) ∧ t.respPort = s.respPort ++ responsesDue m i

/-- The context after reset holds the empty message; two contexts that hold the same message are equivalent;
presenting bytes and taking a response leave the message as it is, and hardware reset discards it.  Derived
from sections 5 and 6 of `10_state.md` and section 3 of `42_context_commands.md`. -/
def Obligations.ResetHoldsTheEmptyMessage : Prop :=
  State.reset.ctx.Holds [] ∧
  (∀ (c d : Context) (m : List Byte), c.Holds m → d.Holds m → c.Equiv d) ∧
  ∀ (s : State) (m : List Byte), s.ctx.Holds m →
    (∀ bs, (s.deliver bs).ctx.Holds m) ∧
    (∀ d t, s.takeResponse = some (d, t) → t.ctx.Holds m) ∧
    s.hardwareReset.ctx.Holds []
end

