-- ==== Sys2Proof/Laws/Memory.lean ====
section
/-! SUPPORT. The laws of the buffer: read after write, canonical form, and what `memWrite` and `memRead`
answer (R50 and R57 of `20_memory.md`). -/

namespace Sys2Proof.Machine

@[simp] theorem Memory.get_nil (a : Nat) : Memory.get [] a = 0 := rfl

theorem Memory.get_cons (c : Host.Cell) (m : Memory) (a : Nat) :
    Memory.get (c :: m) a = if c.1 = a then c.2 else Memory.get m a := rfl

theorem Memory.get_filter_ne (m : Memory) (a i : Nat) :
    Memory.get (m.filter (fun c => c.1 ≠ a)) i = if i = a then 0 else Memory.get m i := by
  induction m with
  | nil => simp
  | cons c m ih =>
    by_cases hc : c.1 = a
    · rw [List.filter_cons_of_neg (by simpa using hc), ih, Memory.get_cons, hc]
      by_cases hi : i = a
      · simp only [hi, if_true]
      · rw [if_neg hi, if_neg hi, if_neg (Ne.symm hi)]
    · rw [List.filter_cons_of_pos (by simpa using hc), Memory.get_cons, ih, Memory.get_cons]
      by_cases hi : i = a
      · rw [hi, if_neg hc, if_pos rfl, if_pos rfl]
      · rw [if_neg hi, if_neg hi]

theorem Memory.get_insertCell (a : Nat) (b : Byte) (m : Memory) (i : Nat) (h : ∀ c ∈ m, c.1 ≠ a) :
    Memory.get (Memory.insertCell a b m) i = if i = a then b else Memory.get m i := by
  induction m with
  | nil =>
    rw [Memory.insertCell, Memory.get_cons]
    by_cases hi : i = a
    · rw [if_pos hi, if_pos hi.symm]
    · rw [if_neg hi, if_neg (Ne.symm hi)]
  | cons c m ih =>
    have hc : c.1 ≠ a := h c (by simp)
    have hm : ∀ x ∈ m, x.1 ≠ a := fun x hx => h x (by simp [hx])
    unfold Memory.insertCell
    split
    · rw [Memory.get_cons]
      by_cases hi : i = a
      · rw [if_pos hi, if_pos hi.symm]
      · rw [if_neg hi, if_neg (Ne.symm hi)]
    · rw [Memory.get_cons, ih hm, Memory.get_cons]
      by_cases hi : i = a
      · rw [hi, if_neg hc, if_pos rfl, if_pos rfl]
      · rw [if_neg hi, if_neg hi]

/-- Read after write: the written address holds the byte, every other address is left alone. -/
theorem Memory.get_set (m : Memory) (a : Nat) (b : Byte) (i : Nat) :
    (m.set a b).get i = if i = a then b else m.get i := by
  unfold Memory.set
  by_cases hb : b = 0
  · simp only [hb, if_true, Memory.get_filter_ne]
  · rw [if_neg hb, Memory.get_insertCell]
    · rw [Memory.get_filter_ne]; by_cases hi : i = a <;> simp [hi]
    · intro c hc; simpa using (List.mem_filter.mp hc).2

theorem Memory.mem_insertCell {a : Nat} {b : Byte} {m : Memory} {c : Host.Cell}
    (h : c ∈ Memory.insertCell a b m) : c = (a, b) ∨ c ∈ m := by
  induction m with
  | nil => simpa [Memory.insertCell] using h
  | cons x m ih =>
    unfold Memory.insertCell at h
    split at h
    · simpa using h
    · rcases List.mem_cons.mp h with rfl | h
      · simp
      · rcases ih h with h | h <;> simp [h]

theorem Memory.insertCell_sorted {a : Nat} {b : Byte} {m : Memory} (hne : ∀ c ∈ m, c.1 ≠ a)
    (hs : m.Pairwise (fun x y => x.1 < y.1)) :
    (Memory.insertCell a b m).Pairwise (fun x y => x.1 < y.1) := by
  induction m with
  | nil => simp [Memory.insertCell]
  | cons x m ih =>
    have hx := List.pairwise_cons.mp hs
    have hxa : x.1 ≠ a := hne x (by simp)
    unfold Memory.insertCell
    split
    · rename_i hlt
      refine List.pairwise_cons.mpr ⟨?_, hs⟩
      intro y hy
      rcases List.mem_cons.mp hy with rfl | hy
      · exact hlt
      · exact lt_trans hlt (hx.1 y hy)
    · refine List.pairwise_cons.mpr ⟨?_, ih (fun c hc => hne c (by simp [hc])) hx.2⟩
      intro y hy
      rcases Memory.mem_insertCell hy with rfl | hy
      · simp only; omega
      · exact hx.1 y hy

/-- One write keeps the canonical form. -/
theorem Memory.wf_set {m : Memory} (h : m.wf) {a : Nat} (ha : a < 64) (b : Byte) : (m.set a b).wf := by
  have hf : (m.filter (fun c => c.1 ≠ a)).Pairwise (fun x y : Host.Cell => x.1 < y.1) :=
    h.1.sublist List.filter_sublist
  have hne : ∀ c ∈ m.filter (fun c => c.1 ≠ a), c.1 ≠ a := fun c hc => by
    simpa using (List.mem_filter.mp hc).2
  unfold Memory.set
  by_cases hb : b = 0
  · rw [if_pos hb]
    exact ⟨hf, fun c hc => h.2 c (List.mem_filter.mp hc).1⟩
  · rw [if_neg hb]
    refine ⟨Memory.insertCell_sorted hne hf, fun c hc => ?_⟩
    rcases Memory.mem_insertCell hc with rfl | hc
    · exact ⟨ha, hb⟩
    · exact h.2 c (List.mem_filter.mp hc).1

/-- The reset contents are in canonical form. -/
@[simp] theorem Memory.wf_nil : Memory.wf ([] : Memory) := by simp [Memory.wf]

@[simp] theorem writeRun_nil (a : Nat) (m : Memory) : writeRun a [] m = m := rfl

/-- A run copy stores exactly the bytes of the run. -/
theorem get_writeRun (bs : List Byte) (a : Nat) (m : Memory) (i : Nat) :
    (writeRun a bs m).get i = if a ≤ i ∧ i < a + bs.length then bs.getD (i - a) 0 else m.get i := by
  induction bs generalizing a m with
  | nil => simp
  | cons b bs ih =>
    rw [writeRun, ih, Memory.get_set]
    rcases Nat.lt_trichotomy i a with h | h | h
    · rw [if_neg (by omega), if_neg (by omega), if_neg (by omega)]
    · subst h; simp
    · by_cases h2 : i < a + (b :: bs).length
      · have h3 : i - a = (i - (a + 1)) + 1 := by omega
        have h4 : (b :: bs).length = bs.length + 1 := rfl
        rw [if_pos (by omega), if_pos (by omega), h3, List.getD_cons_succ]
      · have h4 : (b :: bs).length = bs.length + 1 := rfl
        rw [if_neg (by omega), if_neg (by omega), if_neg (by omega)]

/-- A run copy keeps the canonical form. -/
theorem wf_writeRun {m : Memory} (h : m.wf) (bs : List Byte) {a : Nat} (ha : a + bs.length ≤ 64) :
    (writeRun a bs m).wf := by
  induction bs generalizing a m with
  | nil => simpa using h
  | cons b bs ih =>
    simp only [List.length_cons] at ha
    exact ih (Memory.wf_set h (by omega) b) (by omega)

/-- `memWrite` answers a buffer exactly when the run is inside `BUF`. -/
theorem memWrite_of_le {a : Nat} {bs : List Byte} (h : a + bs.length ≤ 64) (m : Memory) :
    memWrite a bs m = .ok (writeRun a bs m) := if_pos h

/-- `memWrite` faults exactly on a run that leaves `BUF`. -/
theorem memWrite_of_gt {a : Nat} {bs : List Byte} (h : 64 < a + bs.length) (m : Memory) :
    memWrite a bs m = .error (.bufferRange a bs.length) := if_neg (by omega)

/-- `memRead` answers the bytes exactly when the run is inside `BUF`. -/
theorem memRead_of_le {a n : Nat} (h : a + n ≤ 64) (m : Memory) : memRead a n m = .ok (readRun a n m) :=
  if_pos h

/-- `memRead` faults exactly on a run that leaves `BUF`. -/
theorem memRead_of_gt {a n : Nat} (h : 64 < a + n) (m : Memory) :
    memRead a n m = .error (.bufferRange a n) := if_neg (by omega)

/-- Whatever `memWrite` answers is in canonical form. -/
theorem memWrite_wf {a : Nat} {bs : List Byte} {m m' : Memory} (h : m.wf)
    (hw : memWrite a bs m = .ok m') : m'.wf := by
  unfold memWrite at hw
  split at hw
  · rename_i hle
    cases hw
    exact wf_writeRun h bs hle
  · cases hw

@[simp] theorem length_readRun (a n : Nat) (m : Memory) : (readRun a n m).length = n := by
  simp [readRun]

@[simp] theorem readRun_zero (a : Nat) (m : Memory) : readRun a 0 m = [] := rfl

theorem getElem_readRun (a n : Nat) (m : Memory) (k : Nat) (h : k < (readRun a n m).length) :
    (readRun a n m)[k] = m.get (a + k) := by simp [readRun]

@[simp] theorem length_tail (c : Context) : c.tail.length = c.used.val := by simp [Context.tail]

end Sys2Proof.Machine
end

