-- ==== Sys2Proof/Laws/State.lean ====
section
/-! SUPPORT. One lemma per field per update of `State`, so that no later proof unfolds a record update. -/

namespace Sys2Proof.Machine

@[simp] theorem State.setCtx_ctx (c : Context) (s : State) : (s.setCtx c).ctx = c := rfl
@[simp] theorem State.setCtx_cmdPort (c : Context) (s : State) : (s.setCtx c).cmdPort = s.cmdPort := rfl
@[simp] theorem State.setCtx_respPort (c : Context) (s : State) : (s.setCtx c).respPort = s.respPort := rfl

@[simp] theorem State.initialize_ctx (s : State) : s.initialize.ctx = Context.initialized := rfl
@[simp] theorem State.initialize_cmdPort (s : State) : s.initialize.cmdPort = s.cmdPort := rfl
@[simp] theorem State.initialize_respPort (s : State) : s.initialize.respPort = s.respPort := rfl

@[simp] theorem State.consume_ctx (r : List Byte) (s : State) : (s.consume r).ctx = s.ctx := rfl
@[simp] theorem State.consume_cmdPort (r : List Byte) (s : State) : (s.consume r).cmdPort = r := rfl
@[simp] theorem State.consume_respPort (r : List Byte) (s : State) : (s.consume r).respPort = s.respPort := rfl

@[simp] theorem State.respond_ctx (d : Digest) (s : State) : (s.respond d).ctx = s.ctx := rfl
@[simp] theorem State.respond_cmdPort (d : Digest) (s : State) : (s.respond d).cmdPort = s.cmdPort := rfl
@[simp] theorem State.respond_respPort (d : Digest) (s : State) :
    (s.respond d).respPort = s.respPort ++ [d] := rfl

@[simp] theorem State.hold_eq (s : State) : s.hold = s := rfl

@[simp] theorem State.deliver_ctx (bs : List Byte) (s : State) : (s.deliver bs).ctx = s.ctx := rfl
@[simp] theorem State.deliver_cmdPort (bs : List Byte) (s : State) :
    (s.deliver bs).cmdPort = s.cmdPort ++ bs := rfl
@[simp] theorem State.deliver_respPort (bs : List Byte) (s : State) :
    (s.deliver bs).respPort = s.respPort := rfl

@[simp] theorem State.hardwareReset_eq (s : State) : s.hardwareReset = State.reset := rfl

@[simp] theorem State.reset_ctx : State.reset.ctx = Context.initialized := rfl
@[simp] theorem State.reset_cmdPort : State.reset.cmdPort = [] := rfl
@[simp] theorem State.reset_respPort : State.reset.respPort = [] := rfl

@[simp] theorem Context.initialized_v : Context.initialized.v = Chain.iv := rfl
@[simp] theorem Context.initialized_buf : Context.initialized.buf = [] := rfl
@[simp] theorem Context.initialized_used : Context.initialized.used = 0 := rfl
@[simp] theorem Context.initialized_bitLen : Context.initialized.bitLen = 0 := rfl

@[simp] theorem finish_ok (s : State) (c : Context) : finish s (.ok c) = .next (s.setCtx c) := rfl

end Sys2Proof.Machine
end

