-- ==== Sys2Proof/Laws/Context.lean ====
section
/-! SUPPORT. What each operation of CTX answers, said once: the top-up, the whole-block loop, the rest of an
UPDATE, UPDATE on a context, and the padding of FINALIZE.  Every one answers `.ok` for every context. -/

namespace Sys2Proof.Machine

@[simp] theorem length_zeros (n : Nat) : (zeros n).length = n := by simp [zeros]
@[simp] theorem length_be32bytes (w : Word) : (be32bytes w).length = 4 := rfl
@[simp] theorem length_be64bytes (d : DWord) : (be64bytes d).length = 8 := rfl
@[simp] theorem length_encodeDigest (x : Chain) : (encodeDigest x).length = 32 := rfl

@[simp] theorem Except_ok_bind {α β : Type} (a : α) (f : α → Except Fault β) :
    (Except.ok a >>= f) = f a := rfl

/-! ## Runs of bytes -/

/-- A run written from `u` to the end of what is read shows behind the bytes below `u`. -/
theorem readRun_writeRun_append (u n : Nat) (bs : List Byte) (m : Memory) (h : u + bs.length = n) :
    readRun 0 n (writeRun u bs m) = readRun 0 u m ++ bs := by
  apply List.ext_getElem
  · simp [h]
  · intro i h1 h2
    have hi : i < n := by simpa using h1
    rw [getElem_readRun, get_writeRun, Nat.zero_add]
    by_cases hu : i < u
    · rw [if_neg (by omega), List.getElem_append_left (by simpa using hu), getElem_readRun, Nat.zero_add]
    · rw [if_pos (by omega), List.getElem_append_right (by simpa using hu)]
      simp only [length_readRun]
      rw [List.getD_eq_getElem]

/-- A run written at or above `u` does not show below `u`. -/
theorem readRun_writeRun_below (u n : Nat) (bs : List Byte) (m : Memory) (h : n ≤ u) :
    readRun 0 n (writeRun u bs m) = readRun 0 n m := by
  apply List.ext_getElem
  · simp
  · intro i h1 h2
    have hi : i < n := by simpa using h1
    rw [getElem_readRun, getElem_readRun, get_writeRun, if_neg (by omega)]

/-- A run written over all that is read is what is read. -/
theorem readRun_writeRun_zero (bs : List Byte) (m : Memory) :
    readRun 0 bs.length (writeRun 0 bs m) = bs := by
  simpa using readRun_writeRun_append 0 bs.length bs m (by simp)

/-! ## Blocks -/

theorem takeBlocks_succ (k : Nat) (d : List Byte) :
    takeBlocks (k + 1) d = d.take 64 :: takeBlocks k (d.drop 64) := rfl

@[simp] theorem length_takeBlocks (k : Nat) (d : List Byte) : (takeBlocks k d).length = k := by
  induction k generalizing d with
  | zero => rfl
  | succ k ih => simp [takeBlocks, ih]

theorem length_blocksOf (d : List Byte) : (blocksOf d).length = d.length / 64 := by simp [blocksOf]

theorem length_tailOf (d : List Byte) : (tailOf d).length = d.length % 64 := by
  simp only [tailOf, List.length_drop]; omega

theorem blocksOf_short {d : List Byte} (h : d.length < 64) : blocksOf d = [] := by
  simp [blocksOf, Nat.div_eq_of_lt h, takeBlocks]

theorem tailOf_short {d : List Byte} (h : d.length < 64) : tailOf d = d := by
  simp [tailOf, Nat.div_eq_of_lt h]

/-- The first block of a sequence that holds one. -/
theorem blocksOf_block_append {b : List Byte} (hb : b.length = 64) (d : List Byte) :
    blocksOf (b ++ d) = b :: blocksOf d := by
  have h : (b ++ d).length / 64 = d.length / 64 + 1 := by simp only [List.length_append]; omega
  simp only [blocksOf, h, takeBlocks, List.take_append_of_le_length (le_of_eq hb.symm),
    List.drop_append_of_le_length (le_of_eq hb.symm)]
  rw [List.take_of_length_le (le_of_eq hb), List.drop_of_length_le (le_of_eq hb), List.nil_append]

theorem tailOf_block_append {b : List Byte} (hb : b.length = 64) (d : List Byte) :
    tailOf (b ++ d) = tailOf d := by
  have h : (b ++ d).length / 64 = d.length / 64 + 1 := by simp only [List.length_append]; omega
  rw [tailOf, h, List.drop_append, List.drop_of_length_le (by omega), List.nil_append, hb, tailOf,
    Nat.mul_succ, Nat.add_sub_cancel]

@[simp] theorem foldBlocks_nil (x : Chain) : foldBlocks x [] = x := rfl
@[simp] theorem foldBlocks_cons (x : Chain) (b : Block) (bs : List Block) :
    foldBlocks x (b :: bs) = foldBlocks (compress x b) bs := rfl
theorem foldBlocks_append (x : Chain) (bs cs : List Block) :
    foldBlocks x (bs ++ cs) = foldBlocks (foldBlocks x bs) cs := by simp [foldBlocks]

/-! ## UPDATE -/

/-- `k` turns of the whole-block loop compress the first `k` blocks in order and leave the rest. -/
theorem absorbBlocks_eq (k : Nat) (v : Chain) (d : List Byte) :
    absorbBlocks k v d = (foldBlocks v (takeBlocks k d), d.drop (64 * k)) := by
  induction k generalizing v d with
  | zero => simp [absorbBlocks, takeBlocks]
  | succ k ih =>
    rw [absorbBlocks, ih, takeBlocks_succ, foldBlocks_cons, List.drop_drop, Nat.mul_succ, Nat.add_comm]

/-- The loop as UPDATE runs it. -/
theorem absorbBlocks_all (v : Chain) (d : List Byte) :
    absorbBlocks (d.length / 64) v d = (foldBlocks v (blocksOf d), tailOf d) := absorbBlocks_eq _ v d

/-- The top-up of an empty buffer does nothing. -/
theorem topUp_of_empty (data : List Byte) (c : Context) (h : c.used.val = 0) :
    topUp data c = .ok { v := c.v, buf := c.buf, used := 0, rest := data } := by
  unfold topUp
  rw [if_neg (by omega), h]

/-- The top-up that does not complete the block consumes the whole payload. -/
theorem topUp_of_short (data : List Byte) (c : Context) (hu : 0 < c.used.val)
    (h : c.used.val + data.length < 64) :
    topUp data c = .ok { v := c.v, buf := writeRun c.used.val data c.buf,
                         used := c.used.val + data.length, rest := [] } := by
  unfold topUp
  have ht : min (64 - c.used.val) data.length = data.length := by omega
  rw [if_pos hu, ht]
  dsimp only
  rw [List.take_length, memWrite_of_le (by omega), Except_ok_bind, if_neg (by unfold bufferFull; omega),
    List.drop_length]

/-- The top-up that completes the block compresses it and empties the buffer. -/
theorem topUp_of_full (data : List Byte) (c : Context) (hu : 0 < c.used.val)
    (h : 64 ≤ c.used.val + data.length) :
    topUp data c =
      .ok { v := compress c.v (c.tail ++ data.take (64 - c.used.val)),
            buf := writeRun c.used.val (data.take (64 - c.used.val)) c.buf,
            used := 0, rest := data.drop (64 - c.used.val) } := by
  have hlt := c.used.isLt
  have ht : min (64 - c.used.val) data.length = 64 - c.used.val := by omega
  have hl : (data.take (64 - c.used.val)).length = 64 - c.used.val := by
    rw [List.length_take]; omega
  unfold topUp
  rw [if_pos hu, ht]
  dsimp only
  rw [memWrite_of_le (by omega), Except_ok_bind, if_pos (by unfold bufferFull; omega), memRead_of_le (by omega), Except_ok_bind, readRun_writeRun_append _ _ _ _ (by omega), Context.tail]

/-- The rest of an UPDATE when nothing is left of the payload: `USED` stays as the top-up left it
(`90_conflicts.md` C7). -/
theorem absorbRest_of_nil (bitLen : DWord) (v : Chain) (m : Memory) (u : Nat) :
    absorbRest bitLen { v := v, buf := m, used := u, rest := [] } =
      .ok { v := v, buf := m, used := Fin.ofNat 64 u, bitLen := bitLen } := by
  simp [absorbRest, absorbBlocks]

/-- The rest of an UPDATE from an empty buffer: the whole blocks in order, then the tail when there is
one. -/
theorem absorbRest_of_empty (bitLen : DWord) (v : Chain) (m : Memory) (d : List Byte) :
    absorbRest bitLen { v := v, buf := m, used := 0, rest := d } =
      .ok { v := foldBlocks v (blocksOf d), buf := writeRun 0 (tailOf d) m,
            used := Fin.ofNat 64 d.length, bitLen := bitLen } := by
  have hl := length_tailOf d
  have hmod : Fin.ofNat 64 (tailOf d).length = Fin.ofNat 64 d.length := by
    rw [hl]; apply Fin.ext; simp [Fin.ofNat]
  unfold absorbRest
  simp only [absorbBlocks_all]
  by_cases h : 0 < (tailOf d).length
  · rw [if_pos h, memWrite_of_le (by omega), Except_ok_bind, hmod]
  · have hz : (tailOf d).length = 0 := by omega
    rw [if_neg h, ← hmod, hz, List.length_eq_zero_iff.mp hz, writeRun_nil]

/-- UPDATE that stays in the buffer (R174, first row). -/
theorem absorb_of_short (data : List Byte) (c : Context) (h : c.used.val + data.length < 64) :
    absorb data c = .ok
      { v := c.v, buf := writeRun c.used.val data c.buf, used := Fin.ofNat 64 (c.used.val + data.length),
        bitLen := c.bitLen + bits data.length } := by
  unfold absorb
  by_cases hn : data.length = 0
  · have hd : data = [] := List.length_eq_zero_iff.mp hn
    subst hd
    simp [bits, Fin.ofNat, Nat.mod_eq_of_lt c.used.isLt]
  · rw [if_neg hn]
    by_cases hu : 0 < c.used.val
    · rw [topUp_of_short data c hu h, Except_ok_bind, absorbRest_of_nil]
    · have hz : c.used.val = 0 := by omega
      have hlt : data.length < 64 := by omega
      rw [topUp_of_empty data c hz, Except_ok_bind, absorbRest_of_empty, blocksOf_short hlt, tailOf_short hlt,
        foldBlocks_nil, hz, Nat.zero_add]

/-- The buffer after the top-up of an UPDATE that completes a block (R174, last column). -/
def toppedUp (data : List Byte) (c : Context) : Memory :=
  if c.used.val = 0 then c.buf else writeRun c.used.val (data.take (64 - c.used.val)) c.buf

/-- UPDATE that completes at least one block (R174, second and third row). -/
theorem absorb_of_full (data : List Byte) (c : Context) (h : 64 ≤ c.used.val + data.length) :
    absorb data c = .ok
      { v := foldBlocks c.v (blocksOf (c.tail ++ data)),
        buf := writeRun 0 (tailOf (c.tail ++ data)) (toppedUp data c),
        used := Fin.ofNat 64 (c.used.val + data.length),
        bitLen := c.bitLen + bits data.length } := by
  have hlt := c.used.isLt
  unfold absorb
  rw [if_neg (by omega)]
  by_cases hu : 0 < c.used.val
  · have hb : (c.tail ++ data.take (64 - c.used.val)).length = 64 := by
      simp only [List.length_append, length_tail, List.length_take]; omega
    have hsplit : c.tail ++ data
        = (c.tail ++ data.take (64 - c.used.val)) ++ data.drop (64 - c.used.val) := by
      rw [List.append_assoc, List.take_append_drop]
    have hr : Fin.ofNat 64 (data.drop (64 - c.used.val)).length = Fin.ofNat 64 (c.used.val + data.length) := by
      apply Fin.ext; simp only [Fin.ofNat, List.length_drop]; omega
    rw [topUp_of_full data c hu h, Except_ok_bind, absorbRest_of_empty, hsplit, blocksOf_block_append hb,
      tailOf_block_append hb, foldBlocks_cons, hr, toppedUp, if_neg (by omega)]
  · have hz : c.used.val = 0 := by omega
    have ht : c.tail = [] := by simp [Context.tail, hz]
    rw [topUp_of_empty data c hz, Except_ok_bind, absorbRest_of_empty, ht, List.nil_append, toppedUp, if_pos hz,
      hz, Nat.zero_add]

/-- UPDATE answers a context for every context and payload (R33, R172). -/
theorem absorb_ok (data : List Byte) (c : Context) : ∃ c', absorb data c = .ok c' := by
  by_cases h : c.used.val + data.length < 64
  · exact ⟨_, absorb_of_short data c h⟩
  · exact ⟨_, absorb_of_full data c (by omega)⟩

/-! ## FINALIZE -/

theorem compressLast_eq (v : Chain) (d : DWord) (m : Memory) :
    compressLast v d m = .ok (compress v (readRun 0 56 m ++ be64bytes d)) := by
  unfold compressLast
  rw [memWrite_of_le (by simp), Except_ok_bind, memRead_of_le (by omega), Except_ok_bind,
    readRun_writeRun_append 56 64 _ _ (by simp)]

/-- The padding of FINALIZE compresses exactly the blocks of R58. -/
theorem padAndCompress_eq (c : Context) : padAndCompress c = .ok (foldBlocks c.v c.finalBlocks) := by
  have hlt := c.used.isLt
  unfold padAndCompress Context.finalBlocks
  rw [memWrite_of_le (by simp only [List.length_singleton]; omega), Except_ok_bind]
  have hpad : readRun 0 (c.used.val + 1) (writeRun c.used.val [Config.padByte] c.buf)
      = c.tail ++ [Config.padByte] := readRun_writeRun_append _ _ _ _ (by simp)
  by_cases h : spills (c.used.val + 1)
  · have h' : 64 - (c.used.val + 1) < 8 := h
    simp only [h, if_true]
    rw [memWrite_of_le (by simp only [length_zeros]; omega), Except_ok_bind, memRead_of_le (by omega), Except_ok_bind,
      memWrite_of_le (by simp), Except_ok_bind, compressLast_eq,
      readRun_writeRun_append (c.used.val + 1) 64 _ _ (by simp only [length_zeros]; omega), hpad, if_neg (by omega)]
    have hz := readRun_writeRun_zero (zeros 56)
      (writeRun (c.used.val + 1) (zeros (64 - (c.used.val + 1))) (writeRun c.used.val [Config.padByte] c.buf))
    rw [length_zeros] at hz
    rw [hz]
    have : 64 - (c.used.val + 1) = 63 - c.used.val := by omega
    rw [this]
    rfl
  · have h' : ¬ 64 - (c.used.val + 1) < 8 := h
    simp only [h, if_false]
    rw [memWrite_of_le (by simp only [length_zeros]; omega), Except_ok_bind, compressLast_eq,
      readRun_writeRun_append (c.used.val + 1) 56 _ _ (by simp only [length_zeros]; omega), hpad, if_pos (by omega)]
    have : 56 - (c.used.val + 1) = 55 - c.used.val := by omega
    rw [this]
    rfl

/-! ## The commands -/

theorem execUpdate_ok {data : List Byte} {s : State} {c : Context} (h : absorb data s.ctx = .ok c) :
    execUpdate data s = .next (s.setCtx c) := by rw [execUpdate, h, finish_ok]

theorem execFinalize_eq (s : State) :
    execFinalize s = .next (s.initialize.respond (encodeDigest (foldBlocks s.ctx.v s.ctx.finalBlocks))) := by
  rw [execFinalize, padAndCompress_eq]

end Sys2Proof.Machine
end

