-- ==== Sys2Proof/Laws/PerInstr.lean ====
section
/-! SUPPORT. Statements about every command, one lemma per constructor of `Instr`. -/

namespace Sys2Proof.Laws

/-- "A command occupies `4 + n` bytes of the command stream, where `n` is 0 for INIT and FINALIZE and `len`
for UPDATE" (R88 of `30_encoding.md`). -/
def CommandSize.Statement (i : Instr) : Prop := (encode i).length = 4 + i.payload.length

theorem CommandSize.init : CommandSize.Statement .init := rfl

theorem CommandSize.update (data : List Byte) : CommandSize.Statement (.update data) := by
  rw [CommandSize.Statement, encode, List.length_append]
  rfl

theorem CommandSize.finalize : CommandSize.Statement .finalize := rfl

end Sys2Proof.Laws
end

