-- ==== Sys2Proof/Laws/Step.lean ====
section
/-! SUPPORT. What a step can do, said once; sequences of commands and of steps; whole blocks of a
concatenation; what UPDATE does to the quantities the message invariant speaks of. -/

namespace Sys2Proof.Machine

/-- A step that answers a state either held the instance or executed a command taken off the port. -/
theorem step_cases {s t : State} (h : step s = .next t) :
    t = s ∨ ∃ i rest, decode s.cmdPort = .command i rest ∧ exec i (s.consume rest) = .next t := by
  unfold step at h
  cases hd : decode s.cmdPort with
  | command i rest => rw [hd] at h; exact .inr ⟨i, rest, rfl, h⟩
  | reserved why cw => rw [hd] at h; cases h
  | incomplete => rw [hd] at h; cases h; exact .inl rfl

/-- What a command does never depends on the command port, and it leaves the port alone. -/
theorem exec_consume (i : Instr) (s : State) (r : List Byte) :
    exec i (s.consume r) =
      match exec i s with
      | .next t => .next (t.consume r)
      | .fault f => .fault f
      | .refused r' => .refused r' := by
  cases i with
  | init => rfl
  | update data =>
    obtain ⟨c, hc⟩ := absorb_ok data s.ctx
    simp only [exec, execUpdate, State.consume_ctx, hc, finish_ok]
    rfl
  | finalize =>
    simp only [exec, execFinalize_eq, State.consume_ctx]
    rfl

/-- A script in two parts. -/
theorem runCommands_append (is js : List Instr) (s : State) :
    runCommands (is ++ js) s =
      match runCommands is s with
      | .next t => runCommands js t
      | .fault f => .fault f
      | .refused r => .refused r := by
  induction is generalizing s with
  | nil => rfl
  | cons i is ih =>
    simp only [List.cons_append, runCommands]
    cases exec i s <;> simp [ih]

/-- Cutting a sequence into whole blocks and a tail loses nothing, and every piece is a block. -/
theorem blocksOf_tailOf (m : List Byte) :
    (blocksOf m).flatten ++ tailOf m = m ∧ ∀ b ∈ blocksOf m, b.length = 64 := by
  have key : ∀ (k : Nat) (m : List Byte), 64 * k ≤ m.length →
      (takeBlocks k m).flatten ++ m.drop (64 * k) = m ∧ ∀ b ∈ takeBlocks k m, b.length = 64 := by
    intro k
    induction k with
    | zero => intro m _; simp [takeBlocks]
    | succ k ih =>
      intro m h
      obtain ⟨h1, h2⟩ := ih (m.drop 64) (by rw [List.length_drop]; omega)
      rw [List.drop_drop] at h1
      refine ⟨?_, fun b hb => ?_⟩
      · rw [takeBlocks_succ, List.flatten_cons, List.append_assoc, Nat.mul_succ, Nat.add_comm, h1,
          List.take_append_drop]
      · rcases List.mem_cons.mp (takeBlocks_succ k m ▸ hb) with rfl | hb
        · rw [List.length_take]; omega
        · exact h2 b hb
  exact key _ m (by omega)

/-- The blocks and the tail of whole blocks followed by anything. -/
theorem blocksOf_flatten_append (bs : List Block) (h : ∀ b ∈ bs, b.length = 64) (r : List Byte) :
    blocksOf (bs.flatten ++ r) = bs ++ blocksOf r ∧ tailOf (bs.flatten ++ r) = tailOf r := by
  induction bs with
  | nil => simp
  | cons b bs ih =>
    have hb := h b (by simp)
    obtain ⟨h1, h2⟩ := ih (fun x hx => h x (by simp [hx]))
    rw [List.flatten_cons, List.append_assoc, blocksOf_block_append hb, tailOf_block_append hb, h1, h2]
    simp

/-- The blocks of a concatenation are those of its first part and then those of the first part's tail
followed by the second. -/
theorem blocksOf_append (m d : List Byte) :
    blocksOf (m ++ d) = blocksOf m ++ blocksOf (tailOf m ++ d) ∧
      tailOf (m ++ d) = tailOf (tailOf m ++ d) := by
  have h := blocksOf_tailOf m
  have e := blocksOf_flatten_append (blocksOf m) h.2 (tailOf m ++ d)
  rwa [← List.append_assoc, h.1] at e

/-- UPDATE in the terms of the message invariant (R31): blocks compressed, tail kept. -/
theorem exec_update_spec (data : List Byte) (s : State) :
    ∃ t, exec (.update data) s = .next t ∧ t.cmdPort = s.cmdPort ∧ t.respPort = s.respPort ∧
      t.ctx.bitLen = s.ctx.bitLen + bits data.length ∧
      t.ctx.used = Fin.ofNat 64 (s.ctx.used.val + data.length) ∧
      t.ctx.v = foldBlocks s.ctx.v (blocksOf (s.ctx.tail ++ data)) ∧
      t.ctx.tail = tailOf (s.ctx.tail ++ data) := by
  have hlt := s.ctx.used.isLt
  have hlen : (s.ctx.tail ++ data).length = s.ctx.used.val + data.length := by simp
  by_cases h : s.ctx.used.val + data.length < 64
  · refine ⟨_, execUpdate_ok (absorb_of_short data s.ctx h), rfl, rfl, rfl, rfl, ?_, ?_⟩
    · rw [blocksOf_short (by omega)]; rfl
    · rw [tailOf_short (by omega)]
      simp only [Context.tail, State.setCtx_ctx, Fin.ofNat, Nat.mod_eq_of_lt h]
      exact readRun_writeRun_append _ _ _ _ rfl
  · refine ⟨_, execUpdate_ok (absorb_of_full data s.ctx (by omega)), rfl, rfl, rfl, rfl, rfl, ?_⟩
    have hm : (s.ctx.used.val + data.length) % 64 = (tailOf (s.ctx.tail ++ data)).length := by
      rw [length_tailOf, hlen]
    simp only [Context.tail, State.setCtx_ctx, Fin.ofNat]
    rw [hm]
    exact readRun_writeRun_zero _ _

/-! ## The absorbed message -/

@[simp] theorem absorbedAfter_init (m : List Byte) : absorbedAfter m .init = [] := rfl
@[simp] theorem absorbedAfter_update (m data : List Byte) :
    absorbedAfter m (.update data) = m ++ data := rfl
@[simp] theorem absorbedAfter_finalize (m : List Byte) : absorbedAfter m .finalize = [] := rfl
@[simp] theorem responsesDue_init (m : List Byte) : responsesDue m .init = [] := rfl
@[simp] theorem responsesDue_update (m data : List Byte) : responsesDue m (.update data) = [] := rfl
@[simp] theorem responsesDue_finalize (m : List Byte) : responsesDue m .finalize = [sm3 m] := rfl

/-! ## Systems -/

/-- A system step either named no instance or is the step of the instance it names, put in its place. -/
theorem System.stepAt_cases {k : Nat} {y y' : System} (h : y.stepAt k = .next y') :
    (y.insts[k]? = none ∧ y' = y) ∨
      ∃ s s', y.insts[k]? = some s ∧ step s = .next s' ∧ y' = { insts := y.insts.set k s' } := by
  unfold System.stepAt at h
  cases hk : y.insts[k]? with
  | none => rw [hk] at h; cases h; exact .inl ⟨rfl, rfl⟩
  | some s =>
    rw [hk] at h
    simp only at h
    cases hs : step s with
    | next s' => rw [hs] at h; cases h; exact .inr ⟨s, s', rfl, hs, rfl⟩
    | fault f => rw [hs] at h; cases h
    | refused r => rw [hs] at h; cases h

end Sys2Proof.Machine
end

