-- ==== Sys2Proof/Tests/Slice0.lean ====
section
/-! SUPPORT. The model's own tests: expected values are the spec's (its rules, or `95_test_vectors.md`), none
is the model's own answer; then, for every obligation with hypotheses, a concrete case that meets them. -/

namespace Sys2Proof.Tests

open Sys2Proof Sys2Proof.Machine

/-! ## WellFormed smoke: an ill-formed term the check refuses -/

theorem test_wf_refuses_payload_of_2_pow_30 : Instr.wf (.update (zeros 1073741824)) = false := by
  rw [Instr.wf, decide_eq_false_iff_not, length_zeros]
  unfold Config.maxPayload
  omega

theorem test_wf_accepts_largest_payload : Instr.wf (.update (zeros 1073741823)) = true := by
  rw [Instr.wf, decide_eq_true_iff, length_zeros]

/-! ## Decoding: words written out from R81 to R86 and `95_test_vectors.md` section 7 -/

-- INIT: op = 01, len = 0 (R83).
theorem test_decode_init :
    decodeTableWord 32 0b01000000000000000000000000000000 = some .init := by decide

-- UPDATE: op = 10, len = 3, then 61 62 63 (R84).
theorem test_decode_update :
    decode [0b10000000, 0b00000000, 0b00000000, 0b00000011, 0x61, 0x62, 0x63] =
      .command (.update [0x61, 0x62, 0x63]) [] := by decide

-- FINALIZE: op = 11, len = 0 (R85).
theorem test_decode_finalize :
    decodeTableWord 32 0b11000000000000000000000000000000 = some .finalize := by decide

-- The zero-length UPDATE and the largest `len` (section 7).
theorem test_decode_update_empty : decodeTableWord 32 0x80000000 = some (.update []) := by decide
theorem test_decode_word_largest_len : decodeWord 0xBFFFFFFF = .update 1073741823 := by decide

-- Reserved words of section 7.
theorem test_reserved_words :
    decodeWord 0x00000000 = .reserved .opZero ∧ decodeWord 0x00000001 = .reserved .opZero ∧
    decodeWord 0x3FFFFFFF = .reserved .opZero ∧ decodeWord 0x40000001 = .reserved .initWithLen ∧
    decodeWord 0x7FFFFFFF = .reserved .initWithLen ∧ decodeWord 0xC0000001 = .reserved .finalizeWithLen ∧
    decodeWord 0xFFFFFFFF = .reserved .finalizeWithLen := by decide

-- "INIT; UPDATE abc; FINALIZE is the 15 bytes 40 00 00 00 80 00 00 03 61 62 63 C0 00 00 00" (R89).
theorem test_encode_script :
    encodeScript (hashCommands [0x61, 0x62, 0x63]) =
      [0x40, 0, 0, 0, 0x80, 0, 0, 3, 0x61, 0x62, 0x63, 0xC0, 0, 0, 0] := by decide

/-! ## Word primitives: `95_test_vectors.md` section 2, R119 -/

theorem test_rotl : rotl 0x12345678 0 = 0x12345678 ∧ rotl 0x12345678 4 = 0x23456781 ∧
    rotl 0x12345678 31 = 0x091A2B3C := by decide

theorem test_boolean_switch :
    ff 15 0xF0F0F0F0 0xCCCCCCCC 0xAAAAAAAA = 0x96969696 ∧ ff 16 0xF0F0F0F0 0xCCCCCCCC 0xAAAAAAAA = 0xE8E8E8E8 ∧
    gg 15 0xF0F0F0F0 0xCCCCCCCC 0xAAAAAAAA = 0x96969696 ∧ gg 16 0xF0F0F0F0 0xCCCCCCCC 0xAAAAAAAA = 0xCACACACA ∧
    gg 16 0xA96F30BC 0x163138AA 0xE38DEE4D = 0x42A1FEE9 := by decide

theorem test_round_constants_early :
    (List.range 16).map roundConst =
      [0x79CC4519, 0xF3988A32, 0xE7311465, 0xCE6228CB, 0x9CC45197, 0x3988A32F, 0x7311465E, 0xE6228CBC,
       0xCC451979, 0x988A32F3, 0x311465E7, 0x6228CBCE, 0xC451979C, 0x88A32F39, 0x11465E73, 0x228CBCE6] := by
  decide +kernel

theorem test_round_constants_late :
    (List.range' 16 32).map roundConst =
      [0x9D8A7A87, 0x3B14F50F, 0x7629EA1E, 0xEC53D43C, 0xD8A7A879, 0xB14F50F3, 0x629EA1E7, 0xC53D43CE,
       0x8A7A879D, 0x14F50F3B, 0x29EA1E76, 0x53D43CEC, 0xA7A879D8, 0x4F50F3B1, 0x9EA1E762, 0x3D43CEC5,
       0x7A879D8A, 0xF50F3B14, 0xEA1E7629, 0xD43CEC53, 0xA879D8A7, 0x50F3B14F, 0xA1E7629E, 0x43CEC53D,
       0x879D8A7A, 0x0F3B14F5, 0x1E7629EA, 0x3CEC53D4, 0x79D8A7A8, 0xF3B14F50, 0xE7629EA1, 0xCEC53D43] := by
  decide +kernel

theorem test_bits_largest : bits 1073741823 = 0x1FFFFFFF8 := by decide

-- R54: BITLEN = 24.
theorem test_be64bytes : be64bytes 24 = [0, 0, 0, 0, 0, 0, 0, 0x18] := by decide

/-! ## One compression: `95_test_vectors.md` sections 3 and 4 -/

/-- The one block of "abc" (section 3). -/
def abcBlock : Block := [0x61, 0x62, 0x63, 0x80] ++ zeros 59 ++ [0x18]

theorem test_schedule_abc :
    [wordAt (schedule abcBlock) 0, wordAt (schedule abcBlock) 15, wordAt (schedule abcBlock) 16,
     wordAt (schedule abcBlock) 19, wordAt (schedule abcBlock) 67] =
      [0x61626380, 0x00000018, 0x9092E200, 0x719C70ED, 0xB99C0545] := by decide +kernel

theorem test_w1_abc : wordAt (cfW1 (schedule abcBlock)) 63 = 0x49E260D5 := by decide +kernel

-- Row 0 of the trace: the round from IV.
theorem test_round_0 :
    cfRound 0 0x61626380 0x61626380 (cfInit Chain.iv) =
      ⟨0xB9EDC12B, 0x7380166F, 0x29657292, 0x172442D7, 0xB2AD29F4, 0xA96F30BC, 0xC550B189, 0xE38DEE4D⟩ := by
  decide +kernel

-- Row 15 to row 16 of the trace: the switch of constant and functions.
theorem test_round_16 :
    cfRound 16 0x9092E200 0x9092E200
      ⟨0x34D1691E, 0x7C529778, 0x92B57849, 0x979AB113, 0x61F99646, 0x3EE95933, 0x2AA0D251, 0xDB131B86⟩ =
      ⟨0x796AFAB1, 0x34D1691E, 0xA52EF0F8, 0x92B57849, 0x067550F5, 0x61F99646, 0xC999F74A, 0x2AA0D251⟩ := by
  decide +kernel

-- Row 31 to row 32: rotation amount 0 again.
theorem test_round_32 :
    cfRound 32 0xE1DAE338 0xFE9E9EBB
      ⟨0x89A13E59, 0xA5A4A2B3, 0x37593BFF, 0x3D708FC2, 0x0A1FF572, 0xE92DF4EA, 0xA36CC08D, 0x74B72DB2⟩ =
      ⟨0x3720BD4E, 0x89A13E59, 0x4945674B, 0x37593BFF, 0xCF7D1683, 0x0A1FF572, 0xA757496F, 0xA36CC08D⟩ := by
  decide +kernel

-- V after block 0 of "abcd" x 16 (section 4).
theorem test_compress_abcd16 :
    compress Chain.iv (List.replicate 16 [0x61, 0x62, 0x63, 0x64]).flatten =
      ⟨0x5950DE81, 0x468664EB, 0x42FD4C86, 0x1E7CA00A, 0xC0A5910B, 0xAE9A55EA, 0x1ADB8D17, 0x763CA222⟩ := by
  decide +kernel

/-! ## One command on a small state -/

/-- An instance whose buffer holds the bytes `tail`, with `V = IV` and a given `BITLEN`. -/
def holding (tail : List Byte) (bitLen : DWord) : State :=
  { State.reset with
    ctx := { v := Chain.iv, buf := writeRun 0 tail [], used := Fin.ofNat 64 tail.length, bitLen := bitLen } }

/-- The state a command answers, or the state it started from where it answers none. -/
def after (i : Instr) (s : State) : State :=
  match exec i s with
  | .next t => t
  | .fault _ => s
  | .refused _ => s

-- R171: INIT in mid-message discards it, and answers nothing.
theorem test_init_discards : after .init (holding [0x78, 0x79, 0x7a] 0x18) = State.reset := by decide

-- Section 6, T1: UPDATE "abc" stays in the buffer.
theorem test_update_stays :
    after (.update [0x61, 0x62, 0x63]) State.reset = holding [0x61, 0x62, 0x63] 0x18 := by decide

-- Section 6, W1: the top-up completes the block and BITLEN wraps to 0.
theorem test_update_wraps :
    let t := after (.update [0x62]) (holding (List.replicate 63 0x61) 0xFFFFFFFFFFFFFFF8)
    (t.ctx.v, t.ctx.used, t.ctx.bitLen) =
      (⟨0x5406103F, 0xA99AADAA, 0x74CDDE79, 0x35013F40, 0xB9ACE6F3, 0x555657D9, 0x491356A0, 0x83E8793E⟩, 0, 0) := by
  decide +kernel

-- Section 5, L = 55: exactly eight bytes are left after 0x80, one final block.
theorem test_finalize_55 :
    after .finalize (holding (List.replicate 55 0x61) 0x1B8) =
      State.reset.respond
        [0x28, 0x83, 0x37, 0xee, 0xf5, 0x1e, 0xec, 0x62, 0xe7, 0x54, 0x4d, 0x72, 0x70, 0x42, 0x4c, 0x8d,
         0xbe, 0x65, 0x62, 0x54, 0xc9, 0x98, 0x52, 0x87, 0x0a, 0x73, 0xb2, 0x45, 0x3a, 0x6a, 0x7f, 0xb1] := by
  decide +kernel

-- Section 5, L = 56: the spill, two final blocks.
theorem test_finalize_56 :
    after .finalize (holding (List.replicate 56 0x61) 0x1C0) =
      State.reset.respond
        [0xba, 0x00, 0xeb, 0xed, 0xaa, 0xb5, 0x40, 0x65, 0xa5, 0xfd, 0x4f, 0x9f, 0x56, 0x32, 0x60, 0x16,
         0x20, 0x31, 0x66, 0xbc, 0xee, 0x3e, 0xed, 0x44, 0xea, 0x86, 0x8d, 0x59, 0xd6, 0x7a, 0xa3, 0xc8] := by
  decide +kernel

-- R91, R182: the reference digest of "abc" as a function of the message.
theorem test_sm3_abc :
    sm3 [0x61, 0x62, 0x63] =
      [0x66, 0xc7, 0xf0, 0xf4, 0x62, 0xee, 0xed, 0xd9, 0xd1, 0xf2, 0xd4, 0x6b, 0xdc, 0x10, 0xe4, 0xe2,
       0x41, 0x67, 0xc4, 0x87, 0x5c, 0xf2, 0xf7, 0xa2, 0x29, 0x7d, 0xa0, 0x2b, 0x8f, 0x4b, 0xa8, 0xe0] := by
  decide +kernel

/-! ## The step -/

/-- The instance after reset with these bytes on its command port. -/
def offered (bs : List Byte) : State := State.reset.deliver bs

-- R222: a reserved word is refused, not ignored.
theorem test_step_refuses :
    (match step (offered [0x40, 0, 0, 1]) with
      | .refused r => decide (r = .reservedWord .initWithLen 0x40000001)
      | .next _ => false
      | .fault _ => false) = true := by decide

-- R233: a short payload holds the instance.
theorem test_step_holds :
    (match step (offered [0x80, 0, 0, 3, 0x61, 0x62]) with
      | .next t => decide (t = offered [0x80, 0, 0, 3, 0x61, 0x62])
      | .refused _ => false
      | .fault _ => false) = true := by decide

/-! ## Witnesses: for each obligation with hypotheses, a case that meets them all -/

theorem witness_CommandDecodeEncodeRoundTrip :
    Instr.wf .init = true ∧ Instr.wf (.update [0x61]) = true ∧ Instr.wf .finalize = true := by decide

theorem witness_DecodedCommandIsItsOwnEncoding :
    decode [0x80, 0, 0, 1, 0x61, 0xC0] = .command (.update [0x61]) [0xC0] := by decide

-- One case on each side of each clause: len 0 and len 1 for op 01 and op 11; op 00; and an UPDATE word.
theorem witness_ReservedWordsAreRefused :
    (offered [0, 0, 0, 0]).cmdPort = be32bytes 0 ++ [] ∧ opField 0 = 0 ∧
    (offered [0x40, 0, 0, 1, 7]).cmdPort = be32bytes 0x40000001 ++ [7] ∧
    opField 0x40000001 = 1 ∧ lenField 0x40000001 ≠ 0 ∧ opField 0x40000000 = 1 ∧ lenField 0x40000000 = 0 ∧
    (offered [0xC0, 0, 0, 1]).cmdPort = be32bytes 0xC0000001 ++ [] ∧
    opField 0xC0000001 = 3 ∧ lenField 0xC0000001 ≠ 0 ∧ opField 0xC0000000 = 3 ∧ lenField 0xC0000000 = 0 ∧
    opField 0x80000001 = 2 := by decide

theorem witness_StepRunsTheDecodedCommand :
    Instr.wf (.update [0x61]) = true ∧
    decode (offered [0x80, 0, 0, 1, 0x61, 0xC0]).cmdPort = .command (.update [0x61]) [0xC0] := by decide

-- Nothing of the payload there, and all but one byte of it there.
theorem witness_ShortPayloadHoldsTheInstance :
    ([0x61, 0x62] : List Byte) = [] ++ [0x61, 0x62] ∧ ([0x61, 0x62] : List Byte) = [0x61] ++ [0x62] ∧
    ([0x62] : List Byte) ≠ [] ∧ ([0x61, 0x62] : List Byte).length ≤ Config.maxPayload ∧
    (offered [0x80, 0, 0, 2]).cmdPort = be32bytes (encodeWord (.update [0x61, 0x62])) ++ [] ∧
    (offered [0x80, 0, 0, 2, 0x61]).cmdPort = be32bytes (encodeWord (.update [0x61, 0x62])) ++ [0x61] := by
  decide

theorem witness_IdleInstanceDoesNothing :
    State.reset.cmdPort.length < 4 ∧ (offered [0x40, 0, 0]).cmdPort.length < 4 := by decide

theorem witness_LaterBytesWaitTheirTurn :
    decode (offered [0x40, 0, 0, 0]).cmdPort ≠ .incomplete ∧
    step (offered [0x40, 0, 0, 0]) = .next State.reset := ⟨by decide, rfl⟩

theorem witness_CommandStreamRunsInOrder :
    (∀ i ∈ [Instr.init, .update [0x61], .finalize], i.wf = true) ∧
    (offered [0x40, 0, 0, 0, 0x80, 0, 0, 1, 0x61, 0xC0, 0, 0, 0, 9]).cmdPort =
      encodeScript [.init, .update [0x61], .finalize] ++ [9] := by decide

theorem witness_ResponsesAreWholeDigestsInOrder :
    (∃ t, exec .finalize State.reset = .next t) ∧
    (Instr.init ≠ .finalize ∧ ∃ t, exec .init State.reset = .next t) ∧
    (Instr.update [] ≠ .finalize ∧ ∃ t, exec (.update []) State.reset = .next t) ∧
    (zeros 32 : Digest).length = 32 :=
  ⟨⟨_, execFinalize_eq State.reset⟩, ⟨by decide, _, rfl⟩, ⟨by decide, _, execUpdate_ok rfl⟩, by decide⟩

-- The ends of the range of amounts: `test_rotl` has the values at 0, 4 and 31.
theorem witness_RotateLeftIsArithmeticRotation :
    0 ≤ 31 ∧ 31 ≤ 31 ∧ 1 ≤ 31 ∧ 0 < 32 ∧ 31 < 32 := by decide

theorem witness_PermutationsBitByBit :
    31 < 32 ∧ (p0 0x12345678).getLsbD 31 = true ∧ (p1 0x12345678).getLsbD 31 = false := by decide

-- Both sides of the switch: `test_boolean_switch` has the values at `j = 15` and `j = 16`.
theorem witness_BooleanFunctionsBitByBit :
    0 < 32 ∧ 15 < 16 ∧ 16 ≤ 16 ∧
    (ff 15 0xF0F0F0F0 0xCCCCCCCC 0xAAAAAAAA).getLsbD 0 = false ∧
    (ff 16 0xF0F0F0F0 0xCCCCCCCC 0xAAAAAAAA).getLsbD 31 = true := by decide

theorem witness_ChooseTermsAreDisjoint :
    16 ≤ 16 ∧ gg 16 0xF0F0F0F0 0xCCCCCCCC 0xAAAAAAAA = 0xCACACACA := by decide

theorem witness_RoundConstantsFollowByOneRotation :
    (14 < 63 ∧ 14 ≠ 15) ∧ (62 < 63 ∧ 62 ≠ 15) ∧ (16 ≤ 16 ∧ 16 < 32) ∧ (16 ≤ 31 ∧ 31 < 32) := by decide

theorem witness_BitCounterAddsModulo :
    1073741823 ≤ Config.maxPayload ∧ (0xFFFFFFFFFFFFFFF8 : DWord) + bits 1 = 0 := by decide

theorem witness_ByteOrderIsBigEndian : 3 < 4 ∧ 7 < 8 ∧ be32bytes 0x66C7F0F4 = [0x66, 0xC7, 0xF0, 0xF4] := by
  decide

-- The last run inside BUF, and the first outside it.
theorem witness_BufferReadAfterWrite :
    62 + ([1, 2] : List Byte).length ≤ 64 ∧ 64 < 63 + ([1, 2] : List Byte).length ∧
    64 + ([] : List Byte).length ≤ 64 ∧ (writeRun 62 [1, 2] []).get 63 = 2 := by decide

theorem witness_BufferFormIsCanonical :
    Memory.wf (writeRun 0 [1, 0, 2] []) ∧ Memory.wf [(0, 1), (2, 2)] ∧
    ∀ i, i < 64 → Memory.get (writeRun 0 [1, 0, 2] []) i = Memory.get [(0, 1), (2, 2)] i := by
  have h : writeRun 0 [1, 0, 2] [] = [(0, 1), (2, 2)] := by decide
  exact ⟨by rw [h]; decide, by decide, fun i _ => by rw [h]⟩

-- The ends of the ranges of word indexes: `test_schedule_abc` and `test_w1_abc` have values there.
theorem witness_BlockLoadsAndDerivedWords : 15 < 16 ∧ 63 < 64 ∧ abcBlock.length = 64 := by decide

theorem witness_ExpansionRecurrenceIsLinear :
    (16 ≤ 16 ∧ 16 < 68) ∧ (16 ≤ 67 ∧ 67 < 68) ∧ abcBlock.length = 64 ∧ (zeros 64).length = 64 := by decide

-- Both sides of each switch: `test_round_0`, `test_round_16` and `test_round_32` have values there.
theorem witness_RoundsSpecialised :
    15 < 16 ∧ ¬ 16 < 16 ∧ 31 < 32 ∧ ¬ 32 < 32 ∧ 63 < 64 := by decide

theorem witness_DigestEncodingIsBigEndianBijection :
    7 < 8 ∧ 3 < 4 ∧ (zeros 32 : Digest).length = 32 ∧ encodeDigest Chain.iv = encodeDigest Chain.iv := by decide

theorem witness_EncoderIsWiringOnTheBuses : 7 < 8 ∧ 63 < 64 ∧ 15 < 16 ∧ abcBlock.length = 64 := by decide

theorem witness_ResetValues : 63 < 64 ∧ Memory.get State.reset.ctx.buf 63 = 0 := by decide

theorem witness_InitGivesTheInitializedState : State.reset.ctx = Context.initialized := rfl

theorem witness_HardwareResetIsInitThatCancels :
    exec .init (offered [0x80, 0, 0, 3]) = .next (offered [0x80, 0, 0, 3]) := rfl

-- UPDATE at the boundary of its cases: to 63 and to 64 bytes from `USED = 62`.
theorem witness_UpdateCaseTableAndFrame :
    (holding (List.replicate 62 0x61) 0).ctx.used.val + ([7] : List Byte).length < 64 ∧
    ¬ (holding (List.replicate 62 0x61) 0).ctx.used.val + ([7, 8] : List Byte).length < 64 ∧
    (after (.update [7]) (holding (List.replicate 62 0x61) 0)).ctx.buf.get 62 = 7 := by decide +kernel

theorem witness_ContextHoldsTheAbsorbedMessage : State.reset.ctx = Context.initialized := rfl

-- Two equivalent contexts that are not equal: one has a stale byte at index 5, above `USED = 3`.
theorem witness_StreamingEquivalence :
    ∃ s t : State, s.Equiv t ∧ s ≠ t :=
  ⟨holding [1, 2, 3] 0x18,
   { holding [1, 2, 3] 0x18 with ctx := { (holding [1, 2, 3] 0x18).ctx with buf := [(0, 1), (1, 2), (2, 3), (5, 9)] } },
   ⟨⟨rfl, rfl, rfl, by decide⟩, rfl, rfl⟩, by decide⟩

-- Both sides of the spill, at its boundary: `test_finalize_55` and `test_finalize_56` have the digests.
theorem witness_FinalizePadsCompressesResponds :
    (holding (List.replicate 55 0x61) 0x1B8).ctx.used.val ≤ 55 ∧
    56 ≤ (holding (List.replicate 56 0x61) 0x1C0).ctx.used.val := by decide +kernel

theorem witness_FinalizedContextIsReusable : ∃ s', exec .finalize (holding [0x61] 8) = .next s' :=
  ⟨_, execFinalize_eq (holding [0x61] 8)⟩

theorem witness_PaddingIsMinimal :
    (zeros 55).length % 64 ≤ 55 ∧ 56 ≤ (zeros 56).length % 64 ∧ (zeros 119).length % 64 ≤ 55 ∧
    (pad (zeros 55)).length = 64 ∧ (pad (zeros 56)).length = 128 := by decide +kernel

-- Three bytes absorbed: all four equations of R31 hold, the one on `V` among them.
theorem witness_CompressedBlocksAreThePaddedMessage :
    let s := holding [1, 2, 3] 0x18
    s.ctx.used.val = [1, 2, 3].length % 64 ∧ s.ctx.tail = tailOf [1, 2, 3] ∧
    s.ctx.bitLen = bits [1, 2, 3].length ∧ s.ctx.v = foldBlocks Chain.iv (blocksOf [1, 2, 3]) := by decide

theorem witness_ChunkedMessageGivesItsDigest : State.reset.ctx = Context.initialized := rfl

theorem witness_HashAnswersTheMessageDigest :
    .update [0x61] ∈ hashCommands [0x61] ∧ hashCommands [] = [.init, .finalize] := by decide

theorem witness_HashStreamStepsToTheDigest :
    (offered [0x40, 0, 0, 0, 0x80, 0, 0, 1, 0x61, 0xC0, 0, 0, 0, 5]).cmdPort =
      encodeScript (hashCommands [0x61]) ++ [5] := by decide

theorem witness_EveryStepKeepsTheStructuralInvariant :
    (holding [1, 2, 3] 0x18).Inv ∧ step (holding [1, 2, 3] 0x18) = .next (holding [1, 2, 3] 0x18) :=
  ⟨⟨by decide, by simp [holding]⟩, rfl⟩

theorem witness_EveryStepKeepsFillAndCounterTogether :
    (holding [1, 2, 3] 0x18).ctx.Counted ∧ step (holding [1, 2, 3] 0x18) = .next (holding [1, 2, 3] 0x18) :=
  ⟨⟨by decide, by decide⟩, rfl⟩

theorem witness_ResetAndHostMeetTheInvariants :
    ((holding [1] 8).respond (zeros 32)).Inv ∧ ((holding [1] 8).respond (zeros 32)).ctx.Counted ∧
    ((holding [1] 8).respond (zeros 32)).takeResponse = some (zeros 32, holding [1] 8) :=
  ⟨⟨by decide, by simp [holding]⟩, ⟨by decide, by decide⟩, rfl⟩

-- Two instances, the second stepping once and the first twice.
theorem witness_InstancesAreIndependent :
    System.run [0, 1, 0] { insts := [offered [0x40, 0, 0, 0], State.reset] } =
      .next { insts := [State.reset, State.reset] } ∧
    runSteps ([0, 1, 0].count 0) (offered [0x40, 0, 0, 0]) = .next State.reset ∧
    runSteps ([0, 1, 0].count 1) State.reset = .next State.reset := ⟨rfl, rfl, rfl⟩

theorem witness_SystemResetsEveryInstance :
    (1 : Nat) ≠ 0 ∧ State.reset ∈ System.reset.insts := ⟨by decide, by simp [System.reset, Config.nInst]⟩

-- Instance 0 completes an INIT, instance 1 is refused (the all-zero word), and there is no instance 2.
theorem witness_SystemStepMovesOneInstance :
    let y : System := { insts := [offered [0x40, 0, 0, 0], offered [0, 0, 0, 0]] }
    step (offered [0x40, 0, 0, 0]) = .next State.reset ∧
    step (offered [0, 0, 0, 0]) = .refused (.reservedWord .opZero 0) ∧ y.insts[2]? = none ∧
    y.stepAt 0 = .next { insts := [State.reset, offered [0, 0, 0, 0]] } := ⟨rfl, rfl, rfl, rfl⟩

-- A context that holds three bytes, first with no command waiting, then with an UPDATE of one byte.
theorem witness_EveryStepFollowsTheAbsorbedMessage :
    (holding [1, 2, 3] 0x18).ctx.Holds [1, 2, 3] ∧
    step (holding [1, 2, 3] 0x18) = .next (holding [1, 2, 3] 0x18) ∧
    step ((holding [1, 2, 3] 0x18).deliver [0x80, 0, 0, 1, 4]) = .next (holding [1, 2, 3, 4] 0x20) :=
  ⟨by unfold Context.Holds; decide, rfl, rfl⟩

theorem witness_ResetHoldsTheEmptyMessage :
    ((holding [1] 8).respond (zeros 32)).ctx.Holds [1] ∧ (holding [1] 8).ctx.Holds [1] ∧
    ((holding [1] 8).respond (zeros 32)).takeResponse = some (zeros 32, holding [1] 8) :=
  ⟨by unfold Context.Holds; decide, by unfold Context.Holds; decide, rfl⟩

end Sys2Proof.Tests
end

namespace Sys2Proof.Proofs

open Sys2Proof Sys2Proof.Machine

/-- The eight words of `IV` in the order of `V[0..7]` (R6; log 1). -/
theorem iv_toList : Chain.iv.toList =
    [0x7380166F, 0x4914B2B9, 0x172442D7, 0xDA8A0600, 0xA96F30BC, 0x163138AA, 0xE38DEE4D, 0xB0FB0E4E] := rfl

/-- Every byte of an initialized buffer reads as zero (R30). -/
theorem initialized_buf_get (i : Nat) : Context.initialized.buf.get i = 0 := by
  rw [Context.initialized_buf, Memory.get_nil]

/-- Settles O30: reset leaves the initialized context and an empty response port, and each field of the
initialized context has its value of R35. -/
theorem resetValues : Obligations.ResetValues := by
  unfold Obligations.ResetValues
  rw [State.reset_ctx]
  refine ⟨?v, ?buf, ?used, Context.initialized_bitLen, State.reset_respPort⟩
  case v => rw [Context.initialized_v, iv_toList]
  case buf => exact fun i _ => initialized_buf_get i
  case used => rw [Context.initialized_used, Fin.val_zero]

end Sys2Proof.Proofs

/-! ## Command words and their two fields (R81, R82, R86) -/

namespace Sys2Proof.Proofs

open Sys2Proof Sys2Proof.Machine

/-- A command word is its two fields and nothing else (R81). -/
theorem word_eq_iff_fields (a b : Word) : a = b ↔ opField a = opField b ∧ lenField a = lenField b := by
  refine ⟨fun h => ⟨congrArg opField h, congrArg lenField h⟩, fun ⟨hop, hlen⟩ => ?_⟩
  have hop' := congrArg BitVec.toNat hop
  simp only [opField, lenField, BitVec.extractLsb'_toNat, Nat.shiftRight_eq_div_pow] at hop' hlen
  exact BitVec.eq_of_toNat_eq (by omega)

theorem opField_and (a b : Word) : opField (a &&& b) = opField a &&& opField b :=
  BitVec.extractLsb'_and

theorem lenField_and (a b : Word) : lenField (a &&& b) = lenField a &&& lenField b := by
  simp only [lenField, BitVec.extractLsb'_and, BitVec.toNat_and]

/-- A two-bit opcode has four values, one per line of the opcode map (R82). -/
theorem opField_cases (cw : Word) :
    opField cw = 0 ∨ opField cw = 1 ∨ opField cw = 2 ∨ opField cw = 3 := by
  generalize opField cw = op
  revert op
  decide

/-- A row whose mask is all ones fixes both fields (INIT and FINALIZE in R82). -/
theorem and_allOnes_eq_iff_fields (cw m : Word) :
    cw &&& 0xFFFFFFFF = m ↔ opField cw = opField m ∧ lenField cw = lenField m := by
  have hand : cw &&& 0xFFFFFFFF = cw := BitVec.and_allOnes
  rw [hand, word_eq_iff_fields]

/-- The UPDATE row's mask keeps the opcode and drops the length (R82). -/
theorem and_opMask_eq_update_iff (cw : Word) : cw &&& 0xC0000000 = 0x80000000 ↔ opField cw = 2 := by
  have hmaskOp : opField 0xC0000000 = BitVec.allOnes 2 := by decide
  have hmaskLen : lenField 0xC0000000 = 0 := by decide
  have hrowOp : opField 0x80000000 = 2 := by decide
  have hrowLen : lenField 0x80000000 = 0 := by decide
  rw [word_eq_iff_fields, opField_and, lenField_and, hmaskOp, hmaskLen, hrowOp, hrowLen,
    BitVec.and_allOnes, Nat.and_zero]
  exact and_iff_left rfl

/-! ### What the opcode map answers, by opcode -/

theorem decodeWord_of_op_zero {cw : Word} (h : opField cw = 0) : decodeWord cw = .reserved .opZero :=
  if_pos h

theorem decodeWord_of_op_one {cw : Word} (h : opField cw = 1) :
    decodeWord cw = if lenField cw = 0 then .init else .reserved .initWithLen := by
  simp [decodeWord, h]

theorem decodeWord_of_op_two {cw : Word} (h : opField cw = 2) : decodeWord cw = .update (lenField cw) := by
  simp [decodeWord, h]

theorem decodeWord_of_op_three {cw : Word} (h : opField cw = 3) :
    decodeWord cw = if lenField cw = 0 then .finalize else .reserved .finalizeWithLen := by
  simp [decodeWord, h]

theorem decodeWord_eq_init_iff (cw : Word) : decodeWord cw = .init ↔ opField cw = 1 ∧ lenField cw = 0 := by
  rcases opField_cases cw with h | h | h | h
  · simp [decodeWord_of_op_zero h, h]
  · simp [decodeWord_of_op_one h, h]
  · simp [decodeWord_of_op_two h, h]
  · simp [decodeWord_of_op_three h, h, ite_eq_iff]

theorem decodeWord_eq_update_iff (cw : Word) (n : Nat) :
    decodeWord cw = .update n ↔ opField cw = 2 ∧ n = lenField cw := by
  rcases opField_cases cw with h | h | h | h
  · simp [decodeWord_of_op_zero h, h]
  · simp [decodeWord_of_op_one h, h, ite_eq_iff]
  · simp [decodeWord_of_op_two h, h, eq_comm]
  · simp [decodeWord_of_op_three h, h, ite_eq_iff]

theorem decodeWord_eq_finalize_iff (cw : Word) :
    decodeWord cw = .finalize ↔ opField cw = 3 ∧ lenField cw = 0 := by
  rcases opField_cases cw with h | h | h | h
  · simp [decodeWord_of_op_zero h, h]
  · simp [decodeWord_of_op_one h, h, ite_eq_iff]
  · simp [decodeWord_of_op_two h, h]
  · simp [decodeWord_of_op_three h, h]

/-- The three kinds of reserved word (R86). -/
theorem decodeWord_reserved_iff (cw : Word) :
    (∃ why, decodeWord cw = .reserved why) ↔
      opField cw = 0 ∨ (opField cw = 1 ∧ lenField cw ≠ 0) ∨ (opField cw = 3 ∧ lenField cw ≠ 0) := by
  rcases opField_cases cw with h | h | h | h
  · simp [decodeWord_of_op_zero h, h]
  · simp [decodeWord_of_op_one h, h, ite_eq_iff]
  · simp [decodeWord_of_op_two h, h]
  · simp [decodeWord_of_op_three h, h, ite_eq_iff]

/-! ### The rows of the opcode map -/

/-- Every row's mask keeps both opcode bits, so a selected word has the opcode of its row. -/
theorem opField_eq_of_selectedBy {r : OpcodeRow} (hr : r ∈ opcodeRows) {cw : Word}
    (h : r.selectedBy cw = true) : opField r.word = opField cw := by
  have hmask : ∀ r ∈ opcodeRows, opField r.mask = BitVec.allOnes 2 := by decide
  have hword : cw &&& r.mask = r.word := of_decide_eq_true h
  rw [← hword, opField_and, hmask r hr, BitVec.and_allOnes]

/-- No two rows have the same opcode. -/
theorem rows_with_op_le_one (op : BitVec 2) :
    opcodeRows.countP (fun r => decide (opField r.word = op)) ≤ 1 := by
  revert op
  decide

/-- The rows are disjoint: no word selects two of them (R82). -/
theorem selected_rows_le_one (cw : Word) : (opcodeRows.filter (fun r => r.selectedBy cw)).length ≤ 1 := by
  rw [← List.countP_eq_length_filter]
  calc opcodeRows.countP (fun r => r.selectedBy cw)
      ≤ opcodeRows.countP (fun r => decide (opField r.word = opField cw)) :=
        List.countP_mono_left fun _ hr h => decide_eq_true (opField_eq_of_selectedBy hr h)
    _ ≤ 1 := rows_with_op_le_one (opField cw)

/-- Settles O3: each row's mask-and-match condition is a condition on the two fields, which is the one the
decoder tests; disjointness holds because the rows differ in their opcodes. -/
theorem opcodeMapIsMaskAndMatch : Obligations.OpcodeMapIsMaskAndMatch := by
  unfold Obligations.OpcodeMapIsMaskAndMatch
  refine ⟨fun cw => ⟨?init, fun n => ?update, ?finalize, decodeWord_reserved_iff cw,
    selected_rows_le_one cw⟩, ?zeroWord, ?onesWord⟩
  case init =>
    have hop : opField 0x40000000 = 1 := by decide
    have hlen : lenField 0x40000000 = 0 := by decide
    rw [decodeWord_eq_init_iff, and_allOnes_eq_iff_fields, hop, hlen]
  case update => rw [decodeWord_eq_update_iff, and_opMask_eq_update_iff]
  case finalize =>
    have hop : opField 0xC0000000 = 3 := by decide
    have hlen : lenField 0xC0000000 = 0 := by decide
    rw [decodeWord_eq_finalize_iff, and_allOnes_eq_iff_fields, hop, hlen]
  case zeroWord => exact (decodeWord_reserved_iff 0).mpr (.inl (by decide))
  case onesWord => exact (decodeWord_reserved_iff 0xFFFFFFFF).mpr (.inr (.inr (by decide)))

end Sys2Proof.Proofs

/-! ## Reserved words at the front of the command port (R86, R222) -/

namespace Sys2Proof.Proofs

open Sys2Proof Sys2Proof.Machine

/-- Reading back the four bytes of a word gives the word (R52, R53). -/
theorem be32_be32bytes (cw : Word) :
    be32 (cw.extractLsb' 24 8) (cw.extractLsb' 16 8) (cw.extractLsb' 8 8) (cw.extractLsb' 0 8) = cw := by
  rw [be32, BitVec.extractLsb'_append_extractLsb'_eq_extractLsb' (by decide),
    BitVec.extractLsb'_append_extractLsb'_eq_extractLsb' (by decide),
    BitVec.extractLsb'_append_extractLsb'_eq_extractLsb' (by decide)]
  exact BitVec.extractLsb'_eq_self

/-- The payload step never answers "reserved": payload bytes are data, whatever their values (R88). -/
theorem decodePayload_ne_reserved (n : Nat) (rest : List Byte) (why : ReservedWord) (cw : Word) :
    decodePayload n rest ≠ .reserved why cw := by
  unfold decodePayload
  split
  · exact Decoded.noConfusion
  · exact Decoded.noConfusion

/-- The decoder calls the port's front reserved exactly when its first word is, and names that word. -/
theorem decode_eq_reserved_iff (cw cw' : Word) (rest : List Byte) (why : ReservedWord) :
    decode (be32bytes cw ++ rest) = .reserved why cw' ↔ decodeWord cw = .reserved why ∧ cw' = cw := by
  simp only [be32bytes, List.cons_append, List.nil_append, decode, be32_be32bytes]
  cases decodeWord cw with
  | init => simp
  | update n => simp [decodePayload_ne_reserved]
  | finalize => simp
  | reserved why' => simp [eq_comm]

/-- No command, once decoded, is refused or faults (R170, R220). -/
theorem exec_ok (i : Instr) (s : State) : ∃ t, exec i s = .next t := by
  cases i with
  | init => exact ⟨_, rfl⟩
  | update data => obtain ⟨t, ht, -⟩ := exec_update_spec data s; exact ⟨t, ht⟩
  | finalize => exact ⟨_, execFinalize_eq s⟩

/-- The only refusals of a step are those of the decoder. -/
theorem step_eq_refused_iff (s : State) (r : Refusal) :
    step s = .refused r ↔ ∃ why cw, decode s.cmdPort = .reserved why cw ∧ r = .reservedWord why cw := by
  unfold step
  cases decode s.cmdPort with
  | command i rest =>
    obtain ⟨t, ht⟩ := exec_ok i (s.consume rest)
    simp [ht]
  | reserved why cw => simp [eq_comm]
  | incomplete => simp

/-- With a word at the front of the port, the refusals are those of that word. -/
theorem step_refused_iff_of_word {s : State} {cw : Word} {rest : List Byte}
    (h : s.cmdPort = be32bytes cw ++ rest) (r : Refusal) :
    step s = .refused r ↔ ∃ why, decodeWord cw = .reserved why ∧ r = .reservedWord why cw := by
  simp only [step_eq_refused_iff, h, decode_eq_reserved_iff]
  constructor
  · rintro ⟨why, _, ⟨hw, rfl⟩, hr⟩
    exact ⟨why, hw, hr⟩
  · rintro ⟨why, hw, hr⟩
    exact ⟨why, cw, ⟨hw, rfl⟩, hr⟩

/-- Settles O4: the refusals of a step are those of the opcode map on the word at the front of the port. -/
theorem reservedWordsAreRefused : Obligations.ReservedWordsAreRefused := by
  unfold Obligations.ReservedWordsAreRefused
  intro s cw rest hport
  refine ⟨?_, fun r hr => ?_⟩
  · rw [← decodeWord_reserved_iff]
    refine exists_congr fun why => ?_
    simp [step_refused_iff_of_word hport]
  · obtain ⟨why, -, rfl⟩ := (step_refused_iff_of_word hport r).mp hr
    exact ⟨why, rfl⟩

end Sys2Proof.Proofs

/-! ## Responses (R93) and bytes on a bus (R94) -/

namespace Sys2Proof.Proofs

open Sys2Proof Sys2Proof.Machine

theorem packBytes_concat (bs : List Byte) (b : Byte) :
    packBytes (bs ++ [b]) = 256 * packBytes bs + b.toNat := by
  simp [packBytes]

theorem packBytes_lt (bs : List Byte) : packBytes bs < 2 ^ (8 * bs.length) := by
  induction bs using List.reverseRecOn with
  | nil => decide
  | append_singleton bs b ih =>
    have hb := b.isLt
    rw [packBytes_concat, List.length_append, List.length_singleton, Nat.mul_succ, Nat.pow_add]
    omega

/-- The byte `j` places from the end of a packed byte sequence is its base-256 digit `j`. -/
theorem packBytes_digit (bs : List Byte) (j : Nat) (h : j < bs.length) :
    packBytes bs / 2 ^ (8 * j) % 2 ^ 8 = (bs.getD (bs.length - 1 - j) 0).toNat := by
  induction bs using List.reverseRecOn generalizing j with
  | nil => exact absurd h (Nat.not_lt_zero j)
  | append_singleton bs b ih =>
    have hb := b.isLt
    rw [List.length_append, List.length_singleton] at h
    rw [packBytes_concat, List.length_append, List.length_singleton, Nat.add_sub_cancel]
    cases j with
    | zero =>
      rw [Nat.sub_zero, List.getD_append_right _ _ _ _ (Nat.le_refl _), Nat.sub_self, List.getD_cons_zero]
      omega
    | succ j =>
      have hdiv : (256 * packBytes bs + b.toNat) / 2 ^ 8 = packBytes bs := by omega
      have hidx : bs.length - (j + 1) = bs.length - 1 - j := by omega
      rw [Nat.mul_succ, Nat.add_comm (8 * j) 8, Nat.pow_add, ← Nat.div_div_eq_div_mul, hdiv,
        ih j (by omega), hidx, List.getD_append _ _ _ _ (by omega)]

/-- On a bus as wide as the byte sequence, byte `k` lies `8 * k` bits below the top (R93, R94). -/
theorem extractLsb'_packBytes {w : Nat} (bs : List Byte) (hw : w = 8 * bs.length) {k : Nat}
    (hk : k < bs.length) :
    (BitVec.ofNat w (packBytes bs)).extractLsb' (8 * (bs.length - 1 - k)) 8 = bs.getD k 0 := by
  have hidx : bs.length - 1 - (bs.length - 1 - k) = k := by omega
  have hlt : packBytes bs < 2 ^ w := hw ▸ packBytes_lt bs
  apply BitVec.eq_of_toNat_eq
  rw [BitVec.extractLsb'_toNat, BitVec.toNat_ofNat, Nat.mod_eq_of_lt hlt,
    Nat.shiftRight_eq_div_pow, packBytes_digit bs _ (by omega), hidx]

theorem extractLsb'_digestBus {d : Digest} (hd : d.length = 32) {k : Nat} (hk : k < 32) :
    (digestBus d).extractLsb' (248 - 8 * k) 8 = d.getD k 0 := by
  have hpos : 248 - 8 * k = 8 * (d.length - 1 - k) := by omega
  rw [hpos]
  exact extractLsb'_packBytes d (by omega) (by omega)

/-- INIT and UPDATE answer nothing (R93). -/
theorem exec_respPort_of_ne_finalize {i : Instr} (hi : i ≠ .finalize) {s t : State}
    (h : exec i s = .next t) : t.respPort = s.respPort := by
  cases i with
  | init => cases h; exact State.initialize_respPort s
  | update data =>
    obtain ⟨t', ht', -, hresp, -⟩ := exec_update_spec data s
    cases ht'.symm.trans h
    exact hresp
  | finalize => exact absurd rfl hi

/-- FINALIZE answers the encoded fold of its final blocks, behind what is pending (R93, R176). -/
theorem exec_finalize_respPort {s t : State} (h : exec .finalize s = .next t) :
    t.respPort = s.respPort ++ [encodeDigest (foldBlocks s.ctx.v s.ctx.finalBlocks)] := by
  cases (execFinalize_eq s).symm.trans h
  rw [State.respond_respPort, State.initialize_respPort]

/-- Settles O12: what each command leaves on the response port, and the bytes of a digest on the wide port. -/
theorem responsesAreWholeDigestsInOrder : Obligations.ResponsesAreWholeDigestsInOrder := by
  unfold Obligations.ResponsesAreWholeDigestsInOrder
  refine ⟨fun s t h => ?finalize, fun i s t hi h => exec_respPort_of_ne_finalize hi h,
    State.reset_respPort, fun d hd k hk => extractLsb'_digestBus hd hk⟩
  case finalize => exact ⟨_, rfl, length_encodeDigest _, exec_finalize_respPort h⟩

end Sys2Proof.Proofs

/-! ## Padding (R91) -/

namespace Sys2Proof.Proofs

open Sys2Proof Sys2Proof.Machine

theorem padZeros_lt (l : Nat) : padZeros l < 64 := Nat.mod_lt _ (by decide)

/-- The padding fills the last block to its end (R91). -/
theorem padZeros_fills (l : Nat) : (l + 1 + padZeros l + 8) % 64 = 0 := by
  unfold padZeros
  omega

/-- No smaller number of zeros does: two that fill the block differ by a multiple of 64. -/
theorem padZeros_le {l k : Nat} (h : (l + 1 + k + 8) % 64 = 0) : padZeros l ≤ k := by
  unfold padZeros
  omega

/-- A tail of at most 55 bytes leaves room for `0x80` and the length field in its own block. -/
theorem padZeros_of_le {l : Nat} (h : l % 64 ≤ 55) : padZeros l = 55 - l % 64 := by
  unfold padZeros
  omega

/-- A longer tail spills the length field into one more block. -/
theorem padZeros_of_ge {l : Nat} (h : 56 ≤ l % 64) : padZeros l = 119 - l % 64 := by
  unfold padZeros
  omega

theorem length_pad (m : List Byte) : (pad m).length = m.length + 1 + padZeros m.length + 8 := by
  simp only [pad, List.length_append, List.length_singleton, length_zeros, length_be64bytes]

/-- Settles O41: the number of zeros is `padZeros` of the message's length. -/
theorem paddingIsMinimal : Obligations.PaddingIsMinimal := by
  unfold Obligations.PaddingIsMinimal
  intro m
  refine ⟨padZeros m.length, padZeros_lt _, rfl, padZeros_fills _, fun _ => padZeros_le,
    fun h => ?oneBlock, fun h => ?twoBlocks⟩
  case oneBlock => rw [length_pad, padZeros_of_le h]; omega
  case twoBlocks => rw [length_pad, padZeros_of_ge h]; omega

end Sys2Proof.Proofs

/-! ## Word primitives (R111, R114, R115, R116, R117, R120, R121) -/

namespace Sys2Proof.Proofs

open Sys2Proof Sys2Proof.Machine

/-! ### Rotation -/

/-- Bit `i` of a rotated word is the bit `n` places below it, around the word (R111). -/
theorem getLsbD_rotl (x : Word) {n i : Nat} (hn : n < 32) (hi : i < 32) :
    (rotl x n).getLsbD i = x.getLsbD ((i + (32 - n)) % 32) := by
  rw [rotl, BitVec.getLsbD_rotateLeft, Nat.mod_eq_of_lt hn]
  by_cases hwrap : i < n
  · have hsrc : (i + (32 - n)) % 32 = 32 - n + i := by omega
    rw [hsrc, decide_eq_true hwrap, cond_true]
  · have hsrc : (i + (32 - n)) % 32 = i - n := by omega
    rw [hsrc, decide_eq_false hwrap, cond_false, decide_eq_true hi, Bool.true_and]

/-- Where a bit goes: bit `i` becomes bit `(i + n) mod 32` (R111). -/
theorem getLsbD_rotl_moved (x : Word) {n i : Nat} (hn : n < 32) (hi : i < 32) :
    (rotl x n).getLsbD ((i + n) % 32) = x.getLsbD i := by
  have hback : ((i + n) % 32 + (32 - n)) % 32 = i := by omega
  rw [getLsbD_rotl x hn (Nat.mod_lt _ (by decide)), hback]

/-- The two parts of a rotated word do not overlap, so they add up (R111). -/
theorem toNat_rotl (x : Word) {n : Nat} (hn : n < 32) :
    (rotl x n).toNat = x.toNat * 2 ^ n % 2 ^ 32 + x.toNat / 2 ^ (32 - n) := by
  have hpow : 2 ^ 32 = 2 ^ (32 - n) * 2 ^ n := by rw [← Nat.pow_add, Nat.sub_add_cancel hn.le]
  have hhigh : x.toNat * 2 ^ n % 2 ^ 32 = (x.toNat % 2 ^ (32 - n)) <<< n := by
    rw [hpow, Nat.mul_mod_mul_right, Nat.shiftLeft_eq]
  have hlow : x.toNat / 2 ^ (32 - n) < 2 ^ n := Nat.div_lt_of_lt_mul (hpow ▸ x.isLt)
  rw [rotl, BitVec.toNat_rotateLeft, Nat.mod_eq_of_lt hn, Nat.shiftLeft_eq, Nat.shiftRight_eq_div_pow,
    hhigh, Nat.shiftLeft_add_eq_or_of_lt hlow]

theorem rotl_by_zero (x : Word) : rotl x 0 = x := by
  have hx := x.isLt
  apply BitVec.eq_of_toNat_eq
  rw [toNat_rotl x (by decide)]
  omega

theorem rotl_zero {n : Nat} (hn : n < 32) : rotl 0 n = 0 :=
  BitVec.eq_of_getLsbD_eq fun _ hi => (getLsbD_rotl 0 hn hi).trans (by simp)

theorem rotl_allOnes {n : Nat} (hn : n < 32) : rotl (BitVec.allOnes 32) n = BitVec.allOnes 32 :=
  BitVec.eq_of_getLsbD_eq fun i hi => by
    have hsrc : (i + (32 - n)) % 32 < 32 := Nat.mod_lt _ (by decide)
    rw [getLsbD_rotl _ hn hi, BitVec.getLsbD_allOnes, BitVec.getLsbD_allOnes, decide_eq_true hsrc,
      decide_eq_true hi]

/-- Rotation by half a word exchanges the halves. -/
theorem rotl_append_sixteen (hi lo : BitVec 16) : rotl (hi ++ lo) 16 = lo ++ hi := by
  have hhi := hi.isLt
  have hlo := lo.isLt
  have hsum (a b : BitVec 16) : (a ++ b).toNat = a.toNat * 2 ^ 16 + b.toNat := by
    rw [BitVec.toNat_append, ← Nat.shiftLeft_add_eq_or_of_lt b.isLt, Nat.shiftLeft_eq]
  apply BitVec.eq_of_toNat_eq
  rw [toNat_rotl _ (by decide), hsum hi lo, hsum lo hi]
  omega

/-- Settles O14: the arithmetic and the bit form of `rotl` for every amount, and from them its corner
cases. -/
theorem rotateLeftIsArithmeticRotation : Obligations.RotateLeftIsArithmeticRotation := by
  unfold Obligations.RotateLeftIsArithmeticRotation
  refine ⟨fun x n hn => ?amounts, rotl_append_sixteen, ?examples⟩
  case amounts =>
    have hlt : n < 32 := Nat.lt_succ_of_le hn
    exact ⟨fun h => h ▸ rotl_by_zero x, fun _ => toNat_rotl x hlt, fun i hi => getLsbD_rotl_moved x hlt hi,
      rotl_zero hlt, rotl_allOnes hlt⟩
  case examples => decide

/-! ### The permutations -/

/-- `x xor rotl(x, m) xor rotl(x, n)`, the shape of `P0` and `P1`, is a parity of three bits. -/
theorem getLsbD_xor_rotl_rotl (x : Word) {m n i : Nat} (hm : m < 32) (hn : n < 32) (hi : i < 32) :
    (x ^^^ rotl x m ^^^ rotl x n).getLsbD i =
      ((x.getLsbD i).xor (x.getLsbD ((i + (32 - m)) % 32))).xor (x.getLsbD ((i + (32 - n)) % 32)) := by
  rw [BitVec.getLsbD_xor, BitVec.getLsbD_xor, getLsbD_rotl x hm hi, getLsbD_rotl x hn hi]

theorem getLsbD_p0 (x : Word) {i : Nat} (hi : i < 32) :
    (p0 x).getLsbD i =
      ((x.getLsbD i).xor (x.getLsbD ((i + 23) % 32))).xor (x.getLsbD ((i + 15) % 32)) :=
  getLsbD_xor_rotl_rotl x (m := 9) (n := 17) (by decide) (by decide) hi

theorem getLsbD_p1 (x : Word) {i : Nat} (hi : i < 32) :
    (p1 x).getLsbD i =
      ((x.getLsbD i).xor (x.getLsbD ((i + 17) % 32))).xor (x.getLsbD ((i + 9) % 32)) :=
  getLsbD_xor_rotl_rotl x (m := 15) (n := 23) (by decide) (by decide) hi

/-- Settles O15: both permutations are parities of three bits; their values at fixed words are computed. -/
theorem permutationsBitByBit : Obligations.PermutationsBitByBit := by
  unfold Obligations.PermutationsBitByBit
  exact ⟨fun x _ hi => ⟨getLsbD_p0 x hi, getLsbD_p1 x hi⟩, by decide⟩

/-! ### The boolean functions -/

theorem ff_of_early {j : Nat} (h : j < 16) (x y z : Word) : ff j x y z = x ^^^ y ^^^ z := if_pos h

theorem ff_of_late {j : Nat} (h : 16 ≤ j) (x y z : Word) :
    ff j x y z = (x &&& y) ||| (x &&& z) ||| (y &&& z) := if_neg h.not_gt

theorem gg_of_early {j : Nat} (h : j < 16) (x y z : Word) : gg j x y z = x ^^^ y ^^^ z := if_pos h

theorem gg_of_late {j : Nat} (h : 16 ≤ j) (x y z : Word) :
    gg j x y z = (x &&& y) ||| (~~~x &&& z) := if_neg h.not_gt

/-- The majority of three bits: at least two of them are set. -/
theorem majority_eq_decide (a b c : Bool) :
    (a && b || a && c || b && c) = decide (2 ≤ a.toNat + b.toNat + c.toNat) := by
  revert a b c
  decide

/-- Choose: the first bit selects between the other two. -/
theorem choose_eq_ite (a b c : Bool) : (a && b || !a && c) = if a then b else c := by
  cases a with
  | false => rfl
  | true => exact Bool.or_false b

theorem getLsbD_ff_of_early {j : Nat} (h : j < 16) (x y z : Word) (i : Nat) :
    (ff j x y z).getLsbD i = ((x.getLsbD i).xor (y.getLsbD i)).xor (z.getLsbD i) := by
  rw [ff_of_early h, BitVec.getLsbD_xor, BitVec.getLsbD_xor]

theorem getLsbD_ff_of_late {j : Nat} (h : 16 ≤ j) (x y z : Word) (i : Nat) :
    (ff j x y z).getLsbD i =
      decide (2 ≤ (x.getLsbD i).toNat + (y.getLsbD i).toNat + (z.getLsbD i).toNat) := by
  simp only [ff_of_late h, BitVec.getLsbD_or, BitVec.getLsbD_and, majority_eq_decide]

theorem getLsbD_gg_of_late {j : Nat} (h : 16 ≤ j) (x y z : Word) {i : Nat} (hi : i < 32) :
    (gg j x y z).getLsbD i = if x.getLsbD i then y.getLsbD i else z.getLsbD i := by
  simp only [gg_of_late h, BitVec.getLsbD_or, BitVec.getLsbD_and, BitVec.getLsbD_not, decide_eq_true hi,
    Bool.true_and, choose_eq_ite]

/-- Settles O16: each side of the switch is one bitwise expression, which is parity, majority or choose at
every bit. -/
theorem booleanFunctionsBitByBit : Obligations.BooleanFunctionsBitByBit := by
  unfold Obligations.BooleanFunctionsBitByBit
  refine ⟨by decide, by decide, by decide, by decide, fun j x y z i hi => ⟨fun h => ?early, fun h => ?late⟩⟩
  case early => exact ⟨getLsbD_ff_of_early h x y z i, (ff_of_early h x y z).trans (gg_of_early h x y z).symm⟩
  case late => exact ⟨getLsbD_ff_of_late h x y z i, getLsbD_gg_of_late h x y z hi⟩

/-! ### The bit counter -/

theorem toNat_bits (n : Nat) : (bits n).toNat = 8 * n % 2 ^ 64 := BitVec.toNat_ofNat _ _

/-- `a +64 bits(n)`: reducing the payload's bit count first does not change the sum (R120, R121). -/
theorem toNat_add_bits (a : DWord) (n : Nat) : (a + bits n).toNat = (a.toNat + 8 * n) % 2 ^ 64 := by
  rw [BitVec.toNat_add, toNat_bits, Nat.add_mod_mod]

/-- Settles O19: `bits` and the addition to it reduce modulo 2^64, and a payload of one UPDATE is too short
for `bits` to reduce anything. -/
theorem bitCounterAddsModulo : Obligations.BitCounterAddsModulo := by
  unfold Obligations.BitCounterAddsModulo
  intro a n
  refine ⟨toNat_bits n, toNat_add_bits a n, fun hn => ?unreduced⟩
  have hmax : n ≤ 1073741823 := hn
  rw [toNat_bits]
  omega

end Sys2Proof.Proofs

/-! ## CF, the compression engine (R141, R142, R143, R148) -/

namespace Sys2Proof.Proofs

open Sys2Proof Sys2Proof.Machine

/-! ### Reading words of a sequence -/

theorem wordAt_map_range (f : Nat → Word) {n j : Nat} (h : j < n) : wordAt ((List.range n).map f) j = f j := by
  simp [wordAt, h]

theorem wordAt_append_of_lt (w v : List Word) {j : Nat} (h : j < w.length) :
    wordAt (w ++ v) j = wordAt w j :=
  List.getD_append w v 0 j h

theorem wordAt_append_length (w : List Word) (x : Word) : wordAt (w ++ [x]) w.length = x := by
  simp [wordAt]

/-! ### LOAD and W1 -/

@[simp] theorem length_cfLoad (b : Block) : (cfLoad b).length = 16 := by
  rw [cfLoad, List.length_map, List.length_range]

theorem wordAt_cfLoad (b : Block) {i : Nat} (h : i < 16) :
    wordAt (cfLoad b) i =
      be32 (b.getD (4 * i) 0) (b.getD (4 * i + 1) 0) (b.getD (4 * i + 2) 0) (b.getD (4 * i + 3) 0) :=
  wordAt_map_range _ h

@[simp] theorem length_cfW1 (w : List Word) : (cfW1 w).length = 64 := by
  rw [cfW1, List.length_map, List.length_range]

theorem wordAt_cfW1 (w : List Word) {j : Nat} (h : j < 64) :
    wordAt (cfW1 w) j = wordAt w j ^^^ wordAt w (j + 4) :=
  wordAt_map_range _ h

/-! ### EXPAND, step by step -/

/-- The first `n` steps of CF.EXPAND (R142). -/
def expandSteps (w : List Word) (n : Nat) : List Word :=
  (List.range' 16 n).foldl (fun w j => w ++ [expandWord w j]) w

theorem schedule_eq_expandSteps (b : Block) : schedule b = expandSteps (cfLoad b) 52 := rfl

@[simp] theorem expandSteps_zero (w : List Word) : expandSteps w 0 = w := rfl

theorem expandSteps_succ (w : List Word) (n : Nat) :
    expandSteps w (n + 1) = expandSteps w n ++ [expandWord (expandSteps w n) (16 + n)] := by
  rw [expandSteps, List.range'_1_concat, List.foldl_append]
  rfl

@[simp] theorem length_expandSteps (w : List Word) (n : Nat) : (expandSteps w n).length = w.length + n := by
  induction n with
  | zero => rfl
  | succ n ih => rw [expandSteps_succ, List.length_append, ih, List.length_singleton, Nat.add_assoc]

/-- The expansion keeps the words it starts from. -/
theorem wordAt_expandSteps_of_lt (w : List Word) (n : Nat) {j : Nat} (h : j < w.length) :
    wordAt (expandSteps w n) j = wordAt w j := by
  induction n with
  | zero => rfl
  | succ n ih =>
    have hj : j < (expandSteps w n).length := by rw [length_expandSteps]; omega
    rw [expandSteps_succ, wordAt_append_of_lt _ _ hj, ih]

/-- Word `j` of the recurrence depends on the words before it alone. -/
theorem expandWord_append (w v : List Word) {j : Nat} (hj : 16 ≤ j) (hw : j ≤ w.length) :
    expandWord (w ++ v) j = expandWord w j := by
  have before {k : Nat} (hk : 0 < k) : wordAt (w ++ v) (j - k) = wordAt w (j - k) :=
    wordAt_append_of_lt w v (by omega)
  simp [expandWord, before]

/-- A word computed in one step satisfies the recurrence over the whole sequence, since no later step
changes a word (R142). -/
theorem wordAt_expandSteps {w : List Word} (hw : w.length = 16) {n j : Nat} (hj : 16 ≤ j) (hn : j < 16 + n) :
    wordAt (expandSteps w n) j = expandWord (expandSteps w n) j := by
  induction n with
  | zero => omega
  | succ n ih =>
    have hlen : (expandSteps w n).length = 16 + n := by rw [length_expandSteps, hw]
    rw [expandSteps_succ, expandWord_append _ _ hj (by omega)]
    rcases Nat.lt_or_ge j (16 + n) with hlt | hge
    · rw [wordAt_append_of_lt _ _ (by omega), ih hlt]
    · have hlast : j = (expandSteps w n).length := by omega
      rw [hlast, wordAt_append_length, ← hlen]

@[simp] theorem length_schedule (b : Block) : (schedule b).length = 68 := by
  rw [schedule_eq_expandSteps, length_expandSteps, length_cfLoad]

theorem wordAt_schedule_of_lt (b : Block) {i : Nat} (h : i < 16) :
    wordAt (schedule b) i = wordAt (cfLoad b) i := by
  rw [schedule_eq_expandSteps, wordAt_expandSteps_of_lt _ _ (by rwa [length_cfLoad])]

theorem wordAt_schedule_of_ge (b : Block) {j : Nat} (hj : 16 ≤ j) (h : j < 68) :
    wordAt (schedule b) j = expandWord (schedule b) j :=
  wordAt_expandSteps (length_cfLoad b) hj h

/-- Settles O23: LOAD and W1 read index by index, and the expansion keeps the loaded words. -/
theorem blockLoadsAndDerivedWords : Obligations.BlockLoadsAndDerivedWords := by
  unfold Obligations.BlockLoadsAndDerivedWords
  refine fun b => ⟨fun i hi => ?load, length_cfW1 _, fun j hj => wordAt_cfW1 _ hj⟩
  case load => rw [wordAt_schedule_of_lt b hi, wordAt_cfLoad b hi]

/-! ### Linearity over xor -/

theorem rotl_xor (x y : Word) {n : Nat} (hn : n < 32) : rotl (x ^^^ y) n = rotl x n ^^^ rotl y n :=
  BitVec.eq_of_getLsbD_eq fun i hi => by
    simp only [BitVec.getLsbD_xor, getLsbD_rotl _ hn hi]

theorem p1_xor (x y : Word) : p1 (x ^^^ y) = p1 x ^^^ p1 y := by
  rw [p1, rotl_xor x y (by decide), rotl_xor x y (by decide), p1, p1]
  ac_rfl

theorem be32_xor (a b c d a' b' c' d' : Byte) :
    be32 (a ^^^ a') (b ^^^ b') (c ^^^ c') (d ^^^ d') = be32 a b c d ^^^ be32 a' b' c' d' := by
  rw [be32, ← BitVec.xor_append, ← BitVec.xor_append, ← BitVec.xor_append]
  rfl

/-- The elementwise xor of two sequences of one length reads as the xor of what the two read, at indices
past the end also. -/
theorem getD_zipWith_xor {n : Nat} {l m : List (BitVec n)} (h : l.length = m.length) (i : Nat) :
    (List.zipWith (· ^^^ ·) l m).getD i 0 = l.getD i 0 ^^^ m.getD i 0 := by
  rcases Nat.lt_or_ge i l.length with hi | hi
  · simp [hi, h ▸ hi]
  · simp [hi, h ▸ hi]

theorem zipWith_xor_self {n : Nat} (l : List (BitVec n)) :
    List.zipWith (· ^^^ ·) l l = List.replicate l.length 0 := by
  simp [List.map_const']

theorem cfLoad_xor {b c : Block} (h : b.length = c.length) :
    cfLoad (List.zipWith (· ^^^ ·) b c) = List.zipWith (· ^^^ ·) (cfLoad b) (cfLoad c) := by
  simp only [cfLoad, Block.byte, getD_zipWith_xor h, be32_xor, List.zipWith_map, List.zipWith_self]

theorem expandWord_xor {w v : List Word} (h : w.length = v.length) (j : Nat) :
    expandWord (List.zipWith (· ^^^ ·) w v) j = expandWord w j ^^^ expandWord v j := by
  have read (i : Nat) : wordAt (List.zipWith (· ^^^ ·) w v) i = wordAt w i ^^^ wordAt v i :=
    getD_zipWith_xor h i
  have rotl15 (x y : Word) : rotl (x ^^^ y) 15 = rotl x 15 ^^^ rotl y 15 := rotl_xor x y (by decide)
  have rotl7 (x y : Word) : rotl (x ^^^ y) 7 = rotl x 7 ^^^ rotl y 7 := rotl_xor x y (by decide)
  simp only [expandWord, read, rotl15, rotl7, p1_xor]
  ac_rfl

theorem expandSteps_xor {w v : List Word} (h : w.length = v.length) (n : Nat) :
    expandSteps (List.zipWith (· ^^^ ·) w v) n =
      List.zipWith (· ^^^ ·) (expandSteps w n) (expandSteps v n) := by
  induction n with
  | zero => rfl
  | succ n ih =>
    have hn : (expandSteps w n).length = (expandSteps v n).length := by
      rw [length_expandSteps, length_expandSteps, h]
    simp only [expandSteps_succ, ih, expandWord_xor hn, List.zipWith_append hn, List.zipWith_cons_cons,
      List.zipWith_nil_right]

theorem schedule_xor {b c : Block} (h : b.length = c.length) :
    schedule (List.zipWith (· ^^^ ·) b c) = List.zipWith (· ^^^ ·) (schedule b) (schedule c) := by
  have hload : (cfLoad b).length = (cfLoad c).length := by rw [length_cfLoad, length_cfLoad]
  simp only [schedule_eq_expandSteps, cfLoad_xor h, expandSteps_xor hload]

/-- By linearity: the all-zero block is a block xored with itself (R142). -/
theorem schedule_zeros : schedule (zeros 64) = List.replicate 68 0 := by
  have hself : List.zipWith (· ^^^ ·) (zeros 64) (zeros 64) = zeros 64 := by
    rw [zipWith_xor_self, length_zeros, zeros]
  calc schedule (zeros 64)
      = List.zipWith (· ^^^ ·) (schedule (zeros 64)) (schedule (zeros 64)) := by
        rw [← schedule_xor rfl, hself]
    _ = List.replicate 68 0 := by rw [zipWith_xor_self, length_schedule]

/-- Settles O24: each step of the expansion is the recurrence and is linear, and the zero block follows by
linearity. -/
theorem expansionRecurrenceIsLinear : Obligations.ExpansionRecurrenceIsLinear := by
  unfold Obligations.ExpansionRecurrenceIsLinear
  exact ⟨fun b => ⟨length_schedule b, fun _ => wordAt_schedule_of_ge b⟩,
    fun _ _ hb hc => schedule_xor (hb.trans hc.symm), schedule_zeros⟩

/-! ### Feed-forward -/

theorem cfFeed_toList (x : Chain) (r : Working) :
    (cfFeed x r).toList = List.zipWith (· ^^^ ·) x.toList [r.a, r.b, r.c, r.d, r.e, r.f, r.g, r.h] := rfl

theorem compress_eq_cfFeed (x : Chain) (b : Block) :
    compress x b = cfFeed x (cfRounds 64 (schedule b) (cfW1 (schedule b)) (cfInit x)) := rfl

/-- Settles O26: `compress` ends in the feed-forward of the working variables that its rounds leave. -/
theorem compressFeedsForward : Obligations.CompressFeedsForward := by
  unfold Obligations.CompressFeedsForward
  intro x b
  refine ⟨cfRounds 64 (schedule b) (cfW1 (schedule b)) (cfInit x), rfl, ?_⟩
  rw [compress_eq_cfFeed, cfFeed_toList]

end Sys2Proof.Proofs

/-! ## The context commands (R170, R171, R173, R176, R180, R183, R184) -/

namespace Sys2Proof.Proofs

open Sys2Proof Sys2Proof.Machine

/-! ### One command -/

theorem exec_init (s : State) : exec .init s = .next (s.setCtx Context.initialized) := rfl

theorem exec_finalize (s : State) :
    exec .finalize s =
      .next ((s.setCtx Context.initialized).respond
        (encodeDigest (foldBlocks s.ctx.v s.ctx.finalBlocks))) :=
  execFinalize_eq s

theorem exec_update_of_absorb {data : List Byte} {s : State} {c : Context}
    (h : absorb data s.ctx = .ok c) : exec (.update data) s = .next (s.setCtx c) :=
  execUpdate_ok h

/-- No command touches the command port: what waits there is for the next step (R170). -/
theorem exec_cmdPort {i : Instr} {s t : State} (h : exec i s = .next t) : t.cmdPort = s.cmdPort := by
  cases i with
  | init => cases h; exact State.setCtx_cmdPort _ s
  | update data =>
    obtain ⟨t', ht', hcmd, -⟩ := exec_update_spec data s
    cases ht'.symm.trans h
    exact hcmd
  | finalize =>
    cases (exec_finalize s).symm.trans h
    rw [State.respond_cmdPort, State.setCtx_cmdPort]

/-- Settles O11: the command answers a next state, and only FINALIZE appends to the response port. -/
theorem everyCommandCompletes : Obligations.EveryCommandCompletes := by
  unfold Obligations.EveryCommandCompletes
  intro i s
  obtain ⟨t, ht⟩ := exec_ok i s
  by_cases hi : i = .finalize
  · subst hi
    exact ⟨t, _, ht, exec_cmdPort ht, exec_finalize_respPort ht, .inl ⟨rfl, _, rfl⟩⟩
  · have hresp : t.respPort = s.respPort ++ [] := by
      rw [exec_respPort_of_ne_finalize hi ht, List.append_nil]
    exact ⟨t, [], ht, exec_cmdPort ht, hresp, .inr ⟨hi, rfl⟩⟩

/-! ### Scripts -/

@[simp] theorem runCommands_nil (s : State) : runCommands [] s = .next s := rfl

/-- A script goes on from the state its first command answers. -/
theorem runCommands_cons {i : Instr} {s t : State} (h : exec i s = .next t) (is : List Instr) :
    runCommands (i :: is) s = runCommands is t := by rw [runCommands, h]

/-! ### INIT -/

/-- Writing the context with what it holds changes nothing. -/
theorem setCtx_of_ctx_eq {s : State} {c : Context} (h : s.ctx = c) : s.setCtx c = s := by
  rw [← h, State.setCtx]

/-- Settles O31: INIT writes the initialized context, which an initialized state already holds. -/
theorem initGivesTheInitializedState : Obligations.InitGivesTheInitializedState := by
  unfold Obligations.InitGivesTheInitializedState
  refine ⟨fun s => ⟨_, exec_init s, ?fields⟩, fun s h => ?again, fun s => ?twice⟩
  case fields =>
    rw [State.setCtx_ctx]
    exact ⟨iv_toList, initialized_buf_get, rfl, Context.initialized_bitLen, rfl,
      State.setCtx_cmdPort _ s, State.setCtx_respPort _ s⟩
  case again => rw [exec_init, setCtx_of_ctx_eq h]
  case twice =>
    rw [runCommands_cons (exec_init s), runCommands_cons (exec_init _), runCommands_nil,
      setCtx_of_ctx_eq (State.setCtx_ctx _ s), exec_init]

/-! ### UPDATE with an empty payload -/

theorem absorb_nil (c : Context) : absorb [] c = .ok c := rfl

theorem exec_update_nil (s : State) : exec (.update []) s = .next s :=
  exec_update_of_absorb (absorb_nil s.ctx)

/-- Settles O33: the part of the script before the empty UPDATE hands its state on through it. -/
theorem emptyUpdateIsNoOp : Obligations.EmptyUpdateIsNoOp := by
  unfold Obligations.EmptyUpdateIsNoOp
  refine ⟨exec_update_nil, fun is js s => ?_⟩
  have hskip (t : State) : runCommands (.update [] :: js) t = runCommands js t :=
    runCommands_cons (exec_update_nil t) js
  simp only [runCommands_append, hskip]

/-! ### FINALIZE -/

/-- A tail that leaves room for the length field is the start of the only final block (R180). -/
theorem finalBlocks_of_le {c : Context} (h : c.used.val ≤ 55) :
    c.finalBlocks = [c.tail ++ [0x80] ++ zeros (55 - c.used.val) ++ be64bytes c.bitLen] := if_pos h

/-- A longer tail spills the length field into a second final block (R180). -/
theorem finalBlocks_of_ge {c : Context} (h : 56 ≤ c.used.val) :
    c.finalBlocks =
      [c.tail ++ [0x80] ++ zeros (63 - c.used.val), zeros 56 ++ be64bytes c.bitLen] :=
  if_neg (by omega)

/-- Settles O38: FINALIZE folds its final blocks, of which there are one or two by `USED`. -/
theorem finalizePadsCompressesResponds : Obligations.FinalizePadsCompressesResponds := by
  unfold Obligations.FinalizePadsCompressesResponds
  intro s
  refine ⟨fun h => ?oneBlock, fun h => ?twoBlocks⟩
  case oneBlock =>
    rw [exec_finalize, finalBlocks_of_le h, foldBlocks_cons, foldBlocks_nil]
    rfl
  case twoBlocks =>
    rw [exec_finalize, finalBlocks_of_ge h, foldBlocks_cons, foldBlocks_cons, foldBlocks_nil]
    rfl

/-! ### A message depends on the context alone -/

/-- UPDATEs write the context only, and what they write there depends on the context only. -/
theorem runCommands_updates (cs : List (List Byte)) (c : Context) :
    ∃ c', ∀ s : State, s.ctx = c → runCommands (cs.map .update) s = .next (s.setCtx c') := by
  induction cs generalizing c with
  | nil => exact ⟨c, fun s hs => by subst hs; rfl⟩
  | cons data cs ih =>
    obtain ⟨c₁, hc₁⟩ := absorb_ok data c
    obtain ⟨c', hc'⟩ := ih c₁
    refine ⟨c', fun s hs => ?_⟩
    subst hs
    rw [List.map_cons, runCommands_cons (exec_update_of_absorb hc₁), hc' _ (State.setCtx_ctx c₁ s)]
    rfl

/-- A message fed in chunks and finalized gives one digest, which depends on the context it starts from
and not on the ports. -/
theorem runCommands_updates_finalize (cs : List (List Byte)) (c : Context) :
    ∃ d, ∀ s : State, s.ctx = c →
      runCommands (cs.map .update ++ [.finalize]) s = .next ((s.setCtx Context.initialized).respond d) := by
  obtain ⟨c', hc'⟩ := runCommands_updates cs c
  refine ⟨encodeDigest (foldBlocks c'.v c'.finalBlocks), fun s hs => ?_⟩
  simp only [runCommands_append, hc' s hs]
  rw [runCommands_cons (exec_finalize _), runCommands_nil]
  rfl

/-- Settles O39: after FINALIZE and after reset the context is the same, and the digest depends on nothing
else. -/
theorem finalizedContextIsReusable : Obligations.FinalizedContextIsReusable := by
  unfold Obligations.FinalizedContextIsReusable
  intro s s' cs h
  have hctx : s'.ctx = Context.initialized := by
    cases (exec_finalize s).symm.trans h
    rw [State.respond_ctx, State.setCtx_ctx]
  obtain ⟨d, hd⟩ := runCommands_updates_finalize cs Context.initialized
  exact ⟨hctx, _, _, d, hd s' hctx, hd State.reset State.reset_ctx, rfl, rfl⟩

/-! ### The empty message -/

/-- The reference digest of the empty message (R184). -/
theorem sm3_nil : sm3 [] =
    [0x1a, 0xb2, 0x1d, 0x83, 0x55, 0xcf, 0xa1, 0x7f, 0x8e, 0x61, 0x19, 0x48, 0x31, 0xe8, 0x1a, 0x8f,
     0x22, 0xbe, 0xc8, 0xc7, 0x28, 0xfe, 0xfb, 0x74, 0x7e, 0xd0, 0x35, 0xeb, 0x50, 0x82, 0xaa, 0x2b] := by
  decide +kernel

/-- What FINALIZE compresses from the initialized state is the padded empty message. -/
theorem finalBlocks_initialized : Context.initialized.finalBlocks = blocksOf (pad []) := by decide

/-- FINALIZE of an initialized context answers the empty message's digest and changes nothing else. -/
theorem exec_finalize_of_initialized {s : State} (h : s.ctx = Context.initialized) :
    exec .finalize s = .next (s.respond (sm3 [])) := by
  rw [exec_finalize, setCtx_of_ctx_eq h, h, finalBlocks_initialized, Context.initialized_v, sm3]

/-- FINALIZE right after a command that leaves the context initialized. -/
theorem runCommands_finalize_of_initialized {i : Instr} {s t : State} (h : exec i s = .next t)
    (ht : t.ctx = Context.initialized) :
    runCommands [i, .finalize] s = .next (t.respond (sm3 [])) := by
  rw [runCommands_cons h, runCommands_cons (exec_finalize_of_initialized ht), runCommands_nil]

/-- Settles O40: INIT, reset and a first FINALIZE all leave the initialized context, from which FINALIZE
answers the digest of the empty message. -/
theorem secondFinalizeAnswersTheEmptyDigest : Obligations.SecondFinalizeAnswersTheEmptyDigest := by
  unfold Obligations.SecondFinalizeAnswersTheEmptyDigest
  dsimp only
  rw [← sm3_nil]
  refine ⟨rfl, fun s => ?finalize, fun s => ?init, ?reset⟩
  case finalize =>
    exact ⟨_, _, runCommands_finalize_of_initialized (exec_finalize s) rfl,
      List.append_assoc s.respPort [_] [_]⟩
  case init => exact ⟨_, runCommands_finalize_of_initialized (exec_init s) rfl, rfl⟩
  case reset => exact ⟨_, exec_finalize_of_initialized State.reset_ctx, rfl⟩

end Sys2Proof.Proofs

/-! ## The digest encoder (R200, R92) -/

namespace Sys2Proof.Proofs

open Sys2Proof Sys2Proof.Machine

/-! ### One word and its four bytes (R52, R53) -/

/-- Byte `k` of a word counts from the most significant end (R53). -/
theorem getD_be32bytes (w : Word) {k : Nat} (hk : k < 4) :
    (be32bytes w).getD k 0 = w.extractLsb' (24 - 8 * k) 8 := by
  interval_cases k <;> rfl

/-- A word put together from four bytes has just these bytes (R52, R53). -/
theorem be32bytes_be32 (b0 b1 b2 b3 : Byte) : be32bytes (be32 b0 b1 b2 b3) = [b0, b1, b2, b3] := by
  have h0 : (b0 ++ b1 ++ b2 ++ b3).extractLsb' 24 8 = b0 := by
    rw [BitVec.extractLsb'_append_eq_of_le (by decide), BitVec.extractLsb'_append_eq_of_le (by decide),
      BitVec.extractLsb'_append_eq_left]
  have h1 : (b0 ++ b1 ++ b2 ++ b3).extractLsb' 16 8 = b1 := by
    rw [BitVec.extractLsb'_append_eq_of_le (by decide), BitVec.extractLsb'_append_eq_of_le (by decide),
      BitVec.extractLsb'_append_eq_right]
  have h2 : (b0 ++ b1 ++ b2 ++ b3).extractLsb' 8 8 = b2 := by
    rw [BitVec.extractLsb'_append_eq_of_le (by decide), BitVec.extractLsb'_append_eq_right]
  have h3 : (b0 ++ b1 ++ b2 ++ b3).extractLsb' 0 8 = b3 := BitVec.extractLsb'_append_eq_right
  rw [be32bytes, be32, h0, h1, h2, h3]

/-! ### Words and their bytes, in order -/

/-- Byte `4i + k` of a sequence of words is byte `k` of word `i`; behind the last word both read as zero. -/
theorem getD_flatMap_be32bytes (ws : List Word) (i : Nat) {k : Nat} (hk : k < 4) :
    (ws.flatMap be32bytes).getD (4 * i + k) 0 = (wordAt ws i).extractLsb' (24 - 8 * k) 8 := by
  induction ws generalizing i with
  | nil => simp [wordAt]
  | cons w ws ih =>
    rw [List.flatMap_cons]
    cases i with
    | zero =>
      rw [Nat.mul_zero, Nat.zero_add, List.getD_append _ _ _ _ (by rwa [length_be32bytes]), getD_be32bytes w hk]
      rfl
    | succ i =>
      have hidx : 4 * (i + 1) + k - (be32bytes w).length = 4 * i + k := by rw [length_be32bytes]; omega
      rw [List.getD_append_right _ _ _ _ (by rw [length_be32bytes]; omega), hidx, ih i]
      rfl

/-- The inverse of writing words as bytes: four bytes to a word, most significant first (R52). -/
def wordsOfBytes : List Byte → List Word
  | b0 :: b1 :: b2 :: b3 :: rest => be32 b0 b1 b2 b3 :: wordsOfBytes rest
  | _ => []

theorem wordsOfBytes_flatMap_be32bytes (ws : List Word) : wordsOfBytes (ws.flatMap be32bytes) = ws := by
  induction ws with
  | nil => rfl
  | cons w ws ih =>
    simp only [List.flatMap_cons, be32bytes, List.cons_append, List.nil_append, wordsOfBytes, be32_be32bytes]
    exact congrArg (w :: ·) ih

/-- Bytes that fill `n` words are the bytes of the `n` words read from them. -/
theorem flatMap_be32bytes_wordsOfBytes {n : Nat} {bs : List Byte} (h : bs.length = 4 * n) :
    (wordsOfBytes bs).length = n ∧ (wordsOfBytes bs).flatMap be32bytes = bs := by
  induction n generalizing bs with
  | zero =>
    obtain rfl : bs = [] := List.eq_nil_of_length_eq_zero h
    exact ⟨rfl, rfl⟩
  | succ n ih =>
    match bs, h with
    | b0 :: b1 :: b2 :: b3 :: rest, h =>
      obtain ⟨hlen, hbytes⟩ := ih (bs := rest) (by simpa [Nat.mul_succ] using h)
      rw [wordsOfBytes, List.length_cons, List.flatMap_cons, hlen, hbytes, be32bytes_be32]
      exact ⟨rfl, rfl⟩

/-! ### The state as a list of words -/

theorem chain_toList_injective : Function.Injective Chain.toList := by
  intro x y h
  cases x
  cases y
  simpa [Chain.toList] using h

theorem exists_chain_toList_eq {ws : List Word} (h : ws.length = 8) : ∃ x : Chain, x.toList = ws :=
  match ws, h with
  | [v0, v1, v2, v3, v4, v5, v6, v7], _ => ⟨⟨v0, v1, v2, v3, v4, v5, v6, v7⟩, rfl⟩

/-! ### The encoder -/

theorem encodeDigest_injective : Function.Injective encodeDigest :=
  (Function.LeftInverse.injective wordsOfBytes_flatMap_be32bytes).comp chain_toList_injective

theorem exists_encodeDigest_eq {d : Digest} (h : d.length = 32) : ∃ x, encodeDigest x = d := by
  obtain ⟨hlen, hbytes⟩ := flatMap_be32bytes_wordsOfBytes (n := 8) h
  obtain ⟨x, hx⟩ := exists_chain_toList_eq hlen
  exact ⟨x, by rw [encodeDigest, hx, hbytes]⟩

/-- Settles O28: the digest is the eight words written as bytes, and reading four bytes to a word undoes it. -/
theorem digestEncodingIsBigEndianBijection : Obligations.DigestEncodingIsBigEndianBijection := by
  unfold Obligations.DigestEncodingIsBigEndianBijection
  exact ⟨fun x => ⟨length_encodeDigest x, fun i _ _ hk => getD_flatMap_be32bytes x.toList i hk⟩,
    fun _ _ h => encodeDigest_injective h, fun _ h => exists_encodeDigest_eq h⟩

end Sys2Proof.Proofs

/-! ## No fault outcome (R220) -/

namespace Sys2Proof.Proofs

open Sys2Proof Sys2Proof.Machine

/-- Settles O13: a whole command completes (`exec_ok`), a reserved word is refused, and a partial command holds. -/
theorem noStepFaults : Obligations.NoStepFaults := by
  unfold Obligations.NoStepFaults
  intro s f
  unfold step
  cases decode s.cmdPort with
  | command i rest =>
    obtain ⟨t, ht⟩ := exec_ok i (s.consume rest)
    simp [ht]
  | reserved why cw => simp
  | incomplete => simp

end Sys2Proof.Proofs

/-! ## Commands and their bytes (R83 to R85, R88, R89) -/

namespace Sys2Proof.Proofs

open Sys2Proof Sys2Proof.Machine

/-! ### A command word and what it says -/

/-- What the word of a command says by itself: the command, with its payload reduced to a length (R82). -/
def headOf : Instr → CommandHead
  | .init => .init
  | .update data => .update data.length
  | .finalize => .finalize

theorem encodeWord_update_fields {data : List Byte} (h : data.length ≤ Config.maxPayload) :
    opField (encodeWord (.update data)) = 2 ∧ lenField (encodeWord (.update data)) = data.length := by
  have hlt : data.length < 2 ^ 30 := Nat.lt_succ_of_le h
  have hlt32 : data.length < 2 ^ 32 := by omega
  have hop : opField (BitVec.ofNat 32 data.length) = 0 := by
    apply BitVec.eq_of_toNat_eq
    rw [opField, BitVec.extractLsb'_toNat, BitVec.toNat_ofNat, Nat.mod_eq_of_lt hlt32,
      Nat.shiftRight_eq_div_pow, Nat.div_eq_of_lt hlt]
    rfl
  have hlen : lenField (BitVec.ofNat 32 data.length) = data.length := by
    rw [lenField, BitVec.extractLsb'_toNat, BitVec.toNat_ofNat, Nat.mod_eq_of_lt hlt32,
      Nat.shiftRight_zero, Nat.mod_eq_of_lt hlt]
  have hrowOp : opField 0x80000000 = 2 := by decide
  have hrowLen : lenField 0x80000000 = 0 := by decide
  constructor
  · calc opField (encodeWord (.update data))
        = opField 0x80000000 ||| opField (BitVec.ofNat 32 data.length) := BitVec.extractLsb'_or
      _ = 2 := by rw [hop, hrowOp]; rfl
  · calc lenField (encodeWord (.update data))
        = lenField 0x80000000 ||| lenField (BitVec.ofNat 32 data.length) := by
          simp only [lenField, encodeWord, BitVec.extractLsb'_or, BitVec.toNat_or]
      _ = data.length := by rw [hlen, hrowLen, Nat.zero_or]

theorem lenField_le (cw : Word) : lenField cw ≤ Config.maxPayload :=
  Nat.le_of_lt_succ (cw.extractLsb' 0 30).isLt

/-- The word says a command exactly when it is that command's own word, so each command has one word
(R83 to R85). -/
theorem decodeWord_eq_headOf_iff (cw : Word) (i : Instr) :
    decodeWord cw = headOf i ↔ i.wf = true ∧ cw = encodeWord i := by
  cases i with
  | init =>
    have hop : opField (encodeWord .init) = 1 := by decide
    have hlen : lenField (encodeWord .init) = 0 := by decide
    rw [headOf, decodeWord_eq_init_iff, word_eq_iff_fields, hop, hlen]
    exact (and_iff_right rfl).symm
  | update data =>
    rw [headOf, decodeWord_eq_update_iff, Instr.wf, decide_eq_true_iff]
    constructor
    · rintro ⟨hop, hlen⟩
      have hwf : data.length ≤ Config.maxPayload := hlen ▸ lenField_le cw
      obtain ⟨hop', hlen'⟩ := encodeWord_update_fields hwf
      exact ⟨hwf, (word_eq_iff_fields _ _).mpr ⟨hop.trans hop'.symm, hlen.symm.trans hlen'.symm⟩⟩
    · rintro ⟨hwf, rfl⟩
      obtain ⟨hop, hlen⟩ := encodeWord_update_fields hwf
      exact ⟨hop, hlen.symm⟩
  | finalize =>
    have hop : opField (encodeWord .finalize) = 3 := by decide
    have hlen : lenField (encodeWord .finalize) = 0 := by decide
    rw [headOf, decodeWord_eq_finalize_iff, word_eq_iff_fields, hop, hlen]
    exact (and_iff_right rfl).symm

/-! ### The bytes on the port -/

/-- The payload step answers a command exactly when the payload stands whole at the front (R88). -/
theorem decodePayload_eq_command_iff (n : Nat) (bs : List Byte) (i : Instr) (rest : List Byte) :
    decodePayload n bs = .command i rest ↔
      ∃ data, i = .update data ∧ data.length = n ∧ bs = data ++ rest := by
  unfold decodePayload
  split
  case isTrue hle =>
    rw [Decoded.command.injEq]
    constructor
    · rintro ⟨rfl, rfl⟩
      exact ⟨_, rfl, List.length_take_of_le hle, (List.take_append_drop n bs).symm⟩
    · rintro ⟨data, rfl, rfl, rfl⟩
      rw [List.take_left, List.drop_left]
      exact ⟨rfl, rfl⟩
  case isFalse hlt =>
    refine iff_of_false Decoded.noConfusion ?_
    rintro ⟨data, -, rfl, rfl⟩
    exact hlt (by rw [List.length_append]; exact Nat.le_add_right _ _)

/-- Behind an UPDATE word the payload step decides (R88). -/
theorem decode_update_word {cw : Word} {n : Nat} (h : decodeWord cw = .update n) (bs : List Byte) :
    decode (be32bytes cw ++ bs) = decodePayload n bs := by
  simp only [be32bytes, List.cons_append, List.nil_append, decode, be32_be32bytes, h]

/-- A word that says a command, with that command's payload behind it, is that command (R88). -/
theorem decode_word_append_eq_command_iff (cw : Word) (bs : List Byte) (i : Instr) (rest : List Byte) :
    decode (be32bytes cw ++ bs) = .command i rest ↔ decodeWord cw = headOf i ∧ bs = i.payload ++ rest := by
  simp only [be32bytes, List.cons_append, List.nil_append, decode, be32_be32bytes]
  cases decodeWord cw with
  | init => cases i <;> simp [headOf, Instr.payload]
  | update n =>
    rw [decodePayload_eq_command_iff]
    cases i <;> simp [headOf, Instr.payload, eq_comm]
  | finalize => cases i <;> simp [headOf, Instr.payload]
  | reserved why => cases i <;> simp [headOf]

theorem be32bytes_injective : Function.Injective be32bytes := by
  intro a b h
  obtain ⟨h0, h1, h2, h3⟩ := by simpa only [be32bytes, List.cons.injEq, and_true] using h
  rw [← be32_be32bytes a, h0, h1, h2, h3, be32_be32bytes]

/-- Less than a command word is no command (R88). -/
theorem decode_of_length_lt {bs : List Byte} (h : bs.length < 4) : decode bs = .incomplete :=
  match bs, h with
  | [], _ => rfl
  | [_], _ => rfl
  | [_, _], _ => rfl
  | [_, _, _], _ => rfl

/-- Four bytes or more start with a word (R89). -/
theorem exists_word_append {bs : List Byte} (h : 4 ≤ bs.length) : ∃ cw rest, bs = be32bytes cw ++ rest :=
  match bs, h with
  | b0 :: b1 :: b2 :: b3 :: rest, _ => ⟨be32 b0 b1 b2 b3, rest, by rw [be32bytes_be32]; rfl⟩

/-- Decoding and encoding undo each other: a stream decodes to a command exactly when it starts with that
command's encoding (R88, R89). -/
theorem decode_eq_command_iff (bs : List Byte) (i : Instr) (rest : List Byte) :
    decode bs = .command i rest ↔ i.wf = true ∧ bs = encode i ++ rest := by
  rcases Nat.lt_or_ge bs.length 4 with hlt | hge
  · rw [decode_of_length_lt hlt]
    refine iff_of_false Decoded.noConfusion ?_
    rintro ⟨-, rfl⟩
    rw [encode, List.length_append, List.length_append, length_be32bytes] at hlt
    omega
  · obtain ⟨cw, tail, rfl⟩ := exists_word_append hge
    rw [decode_word_append_eq_command_iff, decodeWord_eq_headOf_iff, encode, List.append_assoc, and_assoc]
    refine and_congr_right fun _ => ⟨?_, fun h => ?_⟩
    · rintro ⟨rfl, rfl⟩
      rfl
    · obtain ⟨hword, htail⟩ := List.append_inj h rfl
      exact ⟨be32bytes_injective hword, htail⟩

/-- Settles O1: the encoding of a well-formed command stands at the front of the stream. -/
theorem commandDecodeEncodeRoundTrip : Obligations.CommandDecodeEncodeRoundTrip := by
  unfold Obligations.CommandDecodeEncodeRoundTrip
  exact fun i rest hwf => (decode_eq_command_iff _ i rest).mpr ⟨hwf, rfl⟩

/-- Settles O2: the other direction of `decode_eq_command_iff`. -/
theorem decodedCommandIsItsOwnEncoding : Obligations.DecodedCommandIsItsOwnEncoding := by
  unfold Obligations.DecodedCommandIsItsOwnEncoding
  exact fun bs i rest h => (decode_eq_command_iff bs i rest).mp h

/-- Settles O5: each stream of fixed bytes is decoded by evaluation. -/
theorem writtenOutWordsDecode : Obligations.WrittenOutWordsDecode := by
  unfold Obligations.WrittenOutWordsDecode
  decide

end Sys2Proof.Proofs

/-! ## The step and the ports (R60, R88, R170, R233, R260) -/

namespace Sys2Proof.Proofs

open Sys2Proof Sys2Proof.Machine

/-! ### What a step does -/

theorem step_of_command {s : State} {i : Instr} {rest : List Byte}
    (h : decode s.cmdPort = .command i rest) : step s = exec i (s.consume rest) := by
  rw [step, h]

theorem step_of_incomplete {s : State} (h : decode s.cmdPort = .incomplete) : step s = .next s := by
  rw [step, h]
  rfl

/-- A step runs the well-formed command whose encoding stands at the front of the port. -/
theorem step_of_encode {s : State} {i : Instr} {rest : List Byte} (hwf : i.wf = true)
    (h : s.cmdPort = encode i ++ rest) : step s = exec i (s.consume rest) :=
  step_of_command ((decode_eq_command_iff _ i rest).mpr ⟨hwf, h⟩)

/-- A step that completes either held, with no whole command on the port, or ran the command there. -/
theorem step_eq_next_iff (s t : State) :
    step s = .next t ↔
      (decode s.cmdPort = .incomplete ∧ t = s) ∨
        ∃ i rest, decode s.cmdPort = .command i rest ∧ exec i (s.consume rest) = .next t := by
  cases h : decode s.cmdPort with
  | command i rest => simp [step_of_command h]
  | reserved why cw => simp [step, h]
  | incomplete => simp [step_of_incomplete h, eq_comm]

/-- What a command does does not depend on what waits behind it. -/
theorem exec_consume_of_exec {i : Instr} {s t : State} (h : exec i s = .next t) (rest : List Byte) :
    exec i (s.consume rest) = .next (t.consume rest) := by
  rw [exec_consume, h]

/-- Settles O6: the step takes the decoded command off the port and runs it. -/
theorem stepRunsTheDecodedCommand : Obligations.StepRunsTheDecodedCommand := by
  unfold Obligations.StepRunsTheDecodedCommand
  exact fun _ _ _ _ h => step_of_command h

/-! ### Holding -/

/-- Settles O8: less than a command word decodes to no command. -/
theorem idleInstanceDoesNothing : Obligations.IdleInstanceDoesNothing := by
  unfold Obligations.IdleInstanceDoesNothing
  exact fun _ h => step_of_incomplete (decode_of_length_lt h)

/-- An UPDATE word whose payload stops short is not yet a command (R88, R233). -/
theorem decode_short_payload {data got : List Byte} (hwf : (Instr.update data).wf = true)
    (h : got.length < data.length) :
    decode (be32bytes (encodeWord (.update data)) ++ got) = .incomplete := by
  have hword : decodeWord (encodeWord (.update data)) = .update data.length :=
    (decodeWord_eq_headOf_iff _ (.update data)).mpr ⟨hwf, rfl⟩
  rw [decode_update_word hword, decodePayload, if_neg (Nat.not_le_of_lt h)]

/-- Settles O7: with bytes missing the payload step finds no command, and with them the port starts with
the encoding of the UPDATE. -/
theorem shortPayloadHoldsTheInstance : Obligations.ShortPayloadHoldsTheInstance := by
  unfold Obligations.ShortPayloadHoldsTheInstance
  intro s data got missing hdata hmissing hmax hport
  have hwf : (Instr.update data).wf = true := decide_eq_true hmax
  refine ⟨step_of_incomplete ?held, fun rest => step_of_encode hwf ?arrived⟩
  case held =>
    have hpos : 0 < missing.length := List.length_pos_of_ne_nil hmissing
    rw [hport]
    refine decode_short_payload hwf ?_
    rw [hdata, List.length_append]
    omega
  case arrived =>
    simp only [State.deliver_cmdPort, hport, encode, Instr.payload, hdata, List.append_assoc]

/-! ### Order -/

/-- Settles O9: the command is decoded from its own bytes, and what it does depends on neither port. -/
theorem laterBytesWaitTheirTurn : Obligations.LaterBytesWaitTheirTurn := by
  unfold Obligations.LaterBytesWaitTheirTurn
  intro s t bs hwhole hstep
  obtain ⟨hheld, -⟩ | ⟨i, rest, hdecode, hexec⟩ := (step_eq_next_iff s t).mp hstep
  · exact absurd hheld hwhole
  · obtain ⟨hwf, hport⟩ := (decode_eq_command_iff _ i rest).mp hdecode
    have hport' : (s.deliver bs).cmdPort = encode i ++ (rest ++ bs) := by
      rw [State.deliver_cmdPort, hport, List.append_assoc]
    have hrest : t.cmdPort = rest := exec_cmdPort hexec
    calc step (s.deliver bs)
        = exec i ((s.consume rest).consume (rest ++ bs)) := step_of_encode hwf hport'
      _ = .next (t.consume (rest ++ bs)) := exec_consume_of_exec hexec _
      _ = .next (t.deliver bs) := by rw [← hrest]; rfl

theorem encodeScript_cons (i : Instr) (is : List Instr) :
    encodeScript (i :: is) = encode i ++ encodeScript is := List.flatMap_cons

/-- As many steps as a script has commands run it, and leave what follows it on the port. -/
theorem runSteps_encodeScript (is : List Instr) (s : State) (rest : List Byte)
    (hwf : ∀ i ∈ is, i.wf = true) (hport : s.cmdPort = encodeScript is ++ rest) :
    runSteps is.length s = runCommands is (s.consume rest) := by
  induction is generalizing s with
  | nil =>
    have hrest : s.cmdPort = rest := hport
    rw [← hrest]
    rfl
  | cons i is ih =>
    obtain ⟨hi, his⟩ := List.forall_mem_cons.mp hwf
    obtain ⟨t, ht⟩ := exec_ok i s
    rw [encodeScript_cons, List.append_assoc] at hport
    have hstep : step s = .next (t.consume (encodeScript is ++ rest)) := by
      rw [step_of_encode hi hport, exec_consume_of_exec ht]
    rw [List.length_cons, runSteps, hstep, runCommands_cons (exec_consume_of_exec ht rest)]
    exact ih _ his rfl

/-- Settles O10, by induction on the script. -/
theorem commandStreamRunsInOrder : Obligations.CommandStreamRunsInOrder := by
  unfold Obligations.CommandStreamRunsInOrder
  exact fun is s rest hwf hport => runSteps_encodeScript is s rest hwf hport

end Sys2Proof.Proofs

/-! ## The buffer (R50, R57) -/

namespace Sys2Proof.Proofs

open Sys2Proof Sys2Proof.Machine

/-- Reading a run back right after it is written gives it. -/
theorem readRun_writeRun_same (a : Nat) (bs : List Byte) (m : Memory) :
    readRun a bs.length (writeRun a bs m) = bs := by
  apply List.ext_getElem (length_readRun _ _ _)
  intro k hk hk'
  rw [getElem_readRun, get_writeRun, if_pos (by omega), Nat.add_sub_cancel_left, List.getD_eq_getElem]

/-- Settles O21: inside `BUF` the write is `writeRun`, of which `get_writeRun` says every byte. -/
theorem bufferReadAfterWrite : Obligations.BufferReadAfterWrite := by
  unfold Obligations.BufferReadAfterWrite
  intro m a bs
  refine ⟨fun hle => ⟨writeRun a bs m, memWrite_of_le hle m, ?readBack, fun k hk => ?written,
    fun i hi => ?frame, fun hwf => wf_writeRun hwf bs hle⟩, fun hgt => ?outside⟩
  case readBack => rw [memRead_of_le hle, readRun_writeRun_same]
  case written => rw [get_writeRun, if_pos (by omega), Nat.add_sub_cancel_left]
  case frame => rw [get_writeRun, if_neg (by omega)]
  case outside => exact ⟨memWrite_of_gt hgt m, memRead_of_gt hgt m⟩

/-! ### The canonical form -/

/-- In a list of rising addresses a listed cell is what its address reads as. -/
theorem buffer_get_of_mem {m : Memory} (hm : m.Pairwise (fun x y => x.1 < y.1)) {c : Host.Cell}
    (hc : c ∈ m) : Memory.get m c.1 = c.2 := by
  induction m with
  | nil => exact absurd hc List.not_mem_nil
  | cons d m ih =>
    obtain ⟨hd, hm'⟩ := List.pairwise_cons.mp hm
    rcases List.mem_cons.mp hc with rfl | hc
    · rw [Memory.get_cons, if_pos rfl]
    · rw [Memory.get_cons, if_neg (hd c hc).ne, ih hm' hc]

/-- An address that does not read as zero is listed with what it reads as. -/
theorem mem_of_buffer_get_ne_zero {m : Memory} {a : Nat} (h : Memory.get m a ≠ 0) :
    (a, Memory.get m a) ∈ m := by
  induction m with
  | nil => exact absurd (Memory.get_nil a) h
  | cons c m ih =>
    rw [Memory.get_cons] at h ⊢
    split at h
    case isTrue hca => rw [if_pos hca, ← hca]; exact List.mem_cons_self
    case isFalse hca => rw [if_neg hca]; exact List.mem_cons_of_mem _ (ih h)

/-- The cells of a canonical buffer are determined by what it reads as. -/
theorem mem_buffer_iff_get {m : Memory} (hm : m.wf) (c : Host.Cell) :
    c ∈ m ↔ c.1 < 64 ∧ c.2 ≠ 0 ∧ Memory.get m c.1 = c.2 := by
  obtain ⟨hsorted, hcells⟩ := hm
  constructor
  · intro hc
    obtain ⟨haddr, hbyte⟩ := hcells c hc
    exact ⟨haddr, hbyte, buffer_get_of_mem hsorted hc⟩
  · rintro ⟨-, hbyte, hget⟩
    have hmem := mem_of_buffer_get_ne_zero (m := m) (a := c.1) (by rwa [hget])
    rwa [hget] at hmem

/-- Settles O22: both lists are strictly rising and have the same cells. -/
theorem bufferFormIsCanonical : Obligations.BufferFormIsCanonical := by
  unfold Obligations.BufferFormIsCanonical
  intro m m' hm hm' hget
  have hirrefl : Std.Irrefl fun x y : Host.Cell => x.1 < y.1 := ⟨fun c => lt_irrefl c.1⟩
  have hantisymm : Std.Antisymm fun x y : Host.Cell => x.1 < y.1 := ⟨fun _ _ h h' => absurd h h'.asymm⟩
  refine List.Pairwise.eq_of_mem_iff hm.1 hm'.1 fun c => ?_
  rw [mem_buffer_iff_get hm, mem_buffer_iff_get hm']
  exact and_congr_right fun haddr => by rw [hget c.1 haddr]

end Sys2Proof.Proofs

/-! ## The two invariants of a state (R32, R50, R93) -/

namespace Sys2Proof.Proofs

open Sys2Proof Sys2Proof.Machine

/-- A property of contexts and responses that every command keeps is kept by every step: a step takes a
command off the port and runs it, or does nothing. -/
theorem step_keeps {P : State → Prop} (hconsume : ∀ s rest, P s → P (s.consume rest))
    (hexec : ∀ i s t, P s → exec i s = .next t → P t) {s t : State} (hs : P s) (h : step s = .next t) :
    P t := by
  obtain ⟨-, rfl⟩ | ⟨i, rest, -, hrun⟩ := (step_eq_next_iff s t).mp h
  · exact hs
  · exact hexec i _ t (hconsume s rest hs) hrun

/-! ### The structural invariant -/

theorem wf_toppedUp {c : Context} (h : c.buf.wf) (data : List Byte) : (toppedUp data c).wf := by
  have hused := c.used.isLt
  unfold toppedUp
  split
  · exact h
  · exact wf_writeRun h _ (by rw [List.length_take]; omega)

/-- UPDATE keeps the buffer canonical (R50). -/
theorem absorb_wf {data : List Byte} {c c' : Context} (h : c.buf.wf) (hc : absorb data c = .ok c') :
    c'.buf.wf := by
  rcases Nat.lt_or_ge (c.used.val + data.length) 64 with hshort | hfull
  · cases (absorb_of_short data c hshort).symm.trans hc
    exact wf_writeRun h data hshort.le
  · have htail : (tailOf (c.tail ++ data)).length < 64 := by
      rw [length_tailOf]
      exact Nat.mod_lt _ (by decide)
    cases (absorb_of_full data c hfull).symm.trans hc
    exact wf_writeRun (wf_toppedUp h data) _ (by omega)

theorem initialized_buf_wf : Context.initialized.buf.wf := Memory.wf_nil

theorem exec_inv {i : Instr} {s t : State} (hs : s.Inv) (h : exec i s = .next t) : t.Inv := by
  obtain ⟨hbuf, hresp⟩ := hs
  cases i with
  | init => cases h; exact ⟨initialized_buf_wf, hresp⟩
  | update data =>
    obtain ⟨c, hc⟩ := absorb_ok data s.ctx
    cases (exec_update_of_absorb hc).symm.trans h
    exact ⟨absorb_wf hbuf hc, hresp⟩
  | finalize =>
    cases (exec_finalize s).symm.trans h
    refine ⟨initialized_buf_wf, fun d hd => ?_⟩
    rcases List.mem_append.mp hd with hd | hd
    · exact hresp d hd
    · rw [List.mem_singleton.mp hd, length_encodeDigest]

/-- Settles O46: every command keeps the invariant, which does not speak of the command port. -/
theorem everyStepKeepsTheStructuralInvariant : Obligations.EveryStepKeepsTheStructuralInvariant := by
  unfold Obligations.EveryStepKeepsTheStructuralInvariant
  exact fun _ _ hs h => step_keeps (P := State.Inv) (fun _ _ hs => hs) (fun _ _ _ => exec_inv) hs h

/-! ### The fill count and the bit counter -/

/-- The bits the invariant speaks of are the counter modulo the 512 bits of a block (R32). -/
theorem counted_iff (c : Context) : c.Counted ↔ c.bitLen.toNat % 512 = 8 * c.used.val := by
  have hused := c.used.isLt
  have hlow : c.bitLen.extractLsb' 0 3 = 0 ↔ c.bitLen.toNat % 8 = 0 := by
    rw [← BitVec.toNat_inj, BitVec.extractLsb'_toNat, Nat.shiftRight_zero]
    rfl
  have hmid : (c.bitLen.extractLsb' 3 6).toNat = c.bitLen.toNat / 8 % 64 := by
    rw [BitVec.extractLsb'_toNat, Nat.shiftRight_eq_div_pow]
  rw [Context.Counted, hlow, hmid]
  omega

theorem counted_initialized : Context.initialized.Counted := by
  rw [counted_iff]
  rfl

/-- UPDATE on a context in the terms of R31: counts advanced, blocks compressed, tail kept. -/
theorem absorb_fields {data : List Byte} {c c' : Context} (h : absorb data c = .ok c') :
    c'.bitLen = c.bitLen + bits data.length ∧ c'.used = Fin.ofNat 64 (c.used.val + data.length) ∧
      c'.v = foldBlocks c.v (blocksOf (c.tail ++ data)) ∧ c'.tail = tailOf (c.tail ++ data) := by
  obtain ⟨t, ht, -, -, hfields⟩ := exec_update_spec data (State.reset.setCtx c)
  cases (exec_update_of_absorb h).symm.trans ht
  exact hfields

/-- Both counts advance by the payload length: `USED` modulo 64 bytes, `BITLEN` modulo 2^64 bits, which 512
divides, so that the wrap of the counter does no harm (R32). -/
theorem absorb_counted {data : List Byte} {c c' : Context} (h : c.Counted) (hc : absorb data c = .ok c') :
    c'.Counted := by
  obtain ⟨hbits, hused, -, -⟩ := absorb_fields hc
  rw [counted_iff] at h ⊢
  rw [hbits, hused, toNat_add_bits, Fin.val_ofNat]
  omega

theorem exec_counted {i : Instr} {s t : State} (hs : s.ctx.Counted) (h : exec i s = .next t) :
    t.ctx.Counted := by
  cases i with
  | init => cases h; exact counted_initialized
  | update data =>
    obtain ⟨c, hc⟩ := absorb_ok data s.ctx
    cases (exec_update_of_absorb hc).symm.trans h
    exact absorb_counted hs hc
  | finalize =>
    cases (exec_finalize s).symm.trans h
    exact counted_initialized

/-- Settles O47: every command keeps the two counts together, and they are in the context. -/
theorem everyStepKeepsFillAndCounterTogether : Obligations.EveryStepKeepsFillAndCounterTogether := by
  unfold Obligations.EveryStepKeepsFillAndCounterTogether
  exact fun _ _ hs h =>
    step_keeps (P := fun s => s.ctx.Counted) (fun _ _ hs => hs) (fun _ _ _ => exec_counted) hs h

/-! ### Reset and the host -/

/-- The host can take a response exactly when one is pending, and takes the oldest (R93). -/
theorem takeResponse_eq_some_iff (s t : State) (d : Digest) :
    s.takeResponse = some (d, t) ↔ ∃ ds, s.respPort = d :: ds ∧ t = { s with respPort := ds } := by
  unfold State.takeResponse
  cases s.respPort with
  | nil => simp
  | cons e es => simp [eq_comm]

theorem reset_inv : State.reset.Inv := ⟨initialized_buf_wf, List.forall_mem_nil _⟩

/-- Settles O48: the host writes the ports only, or resets. -/
theorem resetAndHostMeetTheInvariants : Obligations.ResetAndHostMeetTheInvariants := by
  unfold Obligations.ResetAndHostMeetTheInvariants
  refine ⟨reset_inv, counted_initialized, fun s hinv hcounted => ⟨fun bs => ⟨hinv, hcounted⟩,
    fun d t htake => ?take, reset_inv, counted_initialized⟩⟩
  case take =>
    obtain ⟨hbuf, hresp⟩ := hinv
    obtain ⟨ds, hport, rfl⟩ := (takeResponse_eq_some_iff s t d).mp htake
    rw [hport] at hresp
    obtain ⟨hd, hds⟩ := List.forall_mem_cons.mp hresp
    exact ⟨hd, ⟨hbuf, hds⟩, hcounted⟩

end Sys2Proof.Proofs

/-! ## The absorbed message (R31, R181, R182, R185) -/

namespace Sys2Proof.Proofs

open Sys2Proof Sys2Proof.Machine

/-! ### What the context holds -/

theorem bits_add (a b : Nat) : bits (a + b) = bits a + bits b := by
  rw [bits, Nat.mul_add, BitVec.ofNat_add, bits, bits]

theorem initialized_holds_nil : Context.initialized.Holds [] := ⟨rfl, rfl, rfl, rfl⟩

/-- UPDATE extends the absorbed message by its payload (R31). -/
theorem absorb_holds {data m : List Byte} {c c' : Context} (h : c.Holds m) (hc : absorb data c = .ok c') :
    c'.Holds (m ++ data) := by
  obtain ⟨hused, htail, hbits, hv⟩ := h
  obtain ⟨hbits', hused', hv', htail'⟩ := absorb_fields hc
  obtain ⟨hblocks, htails⟩ := blocksOf_append m data
  refine ⟨?used, ?tail, ?bits, ?v⟩
  case used => rw [hused', Fin.val_ofNat, hused, List.length_append, Nat.mod_add_mod]
  case tail => rw [htail', htail, htails]
  case bits => rw [hbits', hbits, List.length_append, bits_add]
  case v => rw [hv', hv, htail, hblocks, foldBlocks_append]

/-- Two contexts that hold one message agree on everything but stale bytes (R175). -/
theorem equiv_of_holds {c d : Context} {m : List Byte} (hc : c.Holds m) (hd : d.Holds m) : c.Equiv d := by
  obtain ⟨hused, htail, hbits, hv⟩ := hc
  obtain ⟨hused', htail', hbits', hv'⟩ := hd
  exact ⟨hv.trans hv'.symm, Fin.ext (hused.trans hused'.symm), hbits.trans hbits'.symm,
    htail.trans htail'.symm⟩

/-- Settles O53: the host's actions write no context but at reset. -/
theorem resetHoldsTheEmptyMessage : Obligations.ResetHoldsTheEmptyMessage := by
  unfold Obligations.ResetHoldsTheEmptyMessage
  refine ⟨initialized_holds_nil, fun _ _ _ => equiv_of_holds, fun s m hm => ⟨fun _ => hm,
    fun d t htake => ?take, initialized_holds_nil⟩⟩
  case take =>
    obtain ⟨ds, -, rfl⟩ := (takeResponse_eq_some_iff s t d).mp htake
    exact hm

/-! ### The final blocks and the padding -/

theorem padZeros_mod (l : Nat) : padZeros (l % 64) = padZeros l := by
  rw [padZeros, Nat.mod_mod, padZeros]

theorem zeros_append (a b : Nat) : zeros a ++ zeros b = zeros (a + b) := List.replicate_append_replicate

/-- One block or two, what FINALIZE compresses is the tail with the padding behind it (R180, R181). -/
theorem flatten_finalBlocks (c : Context) :
    c.finalBlocks.flatten = c.tail ++ [0x80] ++ zeros (padZeros c.used.val) ++ be64bytes c.bitLen := by
  have hmod : c.used.val % 64 = c.used.val := Nat.mod_eq_of_lt c.used.isLt
  rcases Nat.lt_or_ge c.used.val 56 with hlt | hge
  · have hpad : padZeros c.used.val = 55 - c.used.val := by rw [padZeros_of_le (by omega), hmod]
    rw [finalBlocks_of_le (by omega), List.flatten_singleton, hpad]
  · have hpad : padZeros c.used.val = 63 - c.used.val + 56 := by rw [padZeros_of_ge (by omega)]; omega
    rw [finalBlocks_of_ge hge, List.flatten_cons, List.flatten_singleton, hpad, ← zeros_append]
    simp only [List.append_assoc]

theorem length_of_mem_finalBlocks (c : Context) : ∀ b ∈ c.finalBlocks, b.length = 64 := by
  have hused := c.used.isLt
  rcases Nat.lt_or_ge c.used.val 56 with hlt | hge
  · rw [finalBlocks_of_le (by omega), List.forall_mem_singleton]
    simp only [List.length_append, length_tail, List.length_singleton, length_zeros, length_be64bytes]
    omega
  · rw [finalBlocks_of_ge hge, List.forall_mem_cons, List.forall_mem_singleton]
    refine ⟨?_, rfl⟩
    simp only [List.length_append, length_tail, List.length_singleton, length_zeros]
    omega

theorem blocksOf_flatten {bs : List Block} (h : ∀ b ∈ bs, b.length = 64) : blocksOf bs.flatten = bs := by
  obtain ⟨hblocks, -⟩ := blocksOf_flatten_append bs h []
  rw [List.append_nil] at hblocks
  exact hblocks.trans (List.append_nil bs)

/-- The blocks folded so far and FINALIZE's are the padded message cut into blocks (R181, R185). -/
theorem blocksOf_append_finalBlocks {c : Context} {m : List Byte} (hused : c.used.val = m.length % 64)
    (htail : c.tail = tailOf m) (hbits : c.bitLen = bits m.length) :
    blocksOf m ++ c.finalBlocks = blocksOf (pad m) := by
  obtain ⟨hcut, hlen⟩ := blocksOf_tailOf m
  have hpad : pad m = (blocksOf m ++ c.finalBlocks).flatten := by
    calc pad m
        = (blocksOf m).flatten ++ tailOf m ++ [Config.padByte] ++ zeros (padZeros m.length)
            ++ be64bytes (bits m.length) := by rw [hcut, pad]
      _ = (blocksOf m).flatten ++ c.finalBlocks.flatten := by
          rw [flatten_finalBlocks, htail, hused, padZeros_mod, hbits]
          simp only [List.append_assoc]
          rfl
      _ = (blocksOf m ++ c.finalBlocks).flatten := List.flatten_append.symm
  have hall : ∀ b ∈ blocksOf m ++ c.finalBlocks, b.length = 64 :=
    List.forall_mem_append.mpr ⟨hlen, length_of_mem_finalBlocks c⟩
  rw [hpad, blocksOf_flatten hall]

/-- The padded message is whole blocks: cutting it loses nothing (R91). -/
theorem flatten_blocksOf_pad (m : List Byte) : (blocksOf (pad m)).flatten = pad m := by
  have htail : tailOf (pad m) = [] := by
    rw [← List.length_eq_zero_iff, length_tailOf, length_pad, padZeros_fills]
  obtain ⟨hcut, -⟩ := blocksOf_tailOf (pad m)
  rwa [htail, List.append_nil] at hcut

theorem length_blocksOf_pad (m : List Byte) : (blocksOf (pad m)).length = (m.length + 8) / 64 + 1 := by
  rw [length_blocksOf, length_pad, padZeros]
  omega

/-- From a context that holds a message FINALIZE answers its digest and leaves the initialized context
(R182). -/
theorem exec_finalize_of_holds {s : State} {m : List Byte} (h : s.ctx.Holds m) :
    exec .finalize s = .next ((s.setCtx Context.initialized).respond (sm3 m)) := by
  obtain ⟨hused, htail, hbits, hv⟩ := h
  rw [exec_finalize, hv, ← foldBlocks_append, blocksOf_append_finalBlocks hused htail hbits, sm3]

/-- Settles O42: the two foldings from every state, and what they are of the message held. -/
theorem compressedBlocksAreThePaddedMessage : Obligations.CompressedBlocksAreThePaddedMessage := by
  unfold Obligations.CompressedBlocksAreThePaddedMessage
  intro s
  have hupdate (data : List Byte) : ∃ c, exec (.update data) s = .next (s.setCtx c) ∧ absorb data s.ctx = .ok c :=
    (absorb_ok data s.ctx).imp fun _ hc => ⟨exec_update_of_absorb hc, hc⟩
  refine ⟨⟨_, exec_finalize s, rfl⟩, fun data => ?foldUpdate, fun m hused htail hbits =>
    ⟨blocksOf_append_finalBlocks hused htail hbits, flatten_blocksOf_pad m, length_blocksOf_pad m,
      fun hv => ⟨fun data => ?heldUpdate, ?heldFinalize⟩⟩⟩
  case foldUpdate =>
    obtain ⟨c, hexec, hc⟩ := hupdate data
    obtain ⟨-, -, hfold, -⟩ := absorb_fields hc
    exact ⟨_, hexec, hfold⟩
  case heldUpdate =>
    obtain ⟨c, hexec, hc⟩ := hupdate data
    obtain ⟨-, -, -, hfold⟩ := absorb_holds ⟨hused, htail, hbits, hv⟩ hc
    exact ⟨_, hexec, hfold⟩
  case heldFinalize => exact ⟨_, exec_finalize_of_holds ⟨hused, htail, hbits, hv⟩, rfl⟩

/-! ### One command, one step -/

/-- What a command makes of the message held, and what it owes to it (R31, R182). -/
theorem exec_follows_message {i : Instr} {s t : State} {m : List Byte} (hm : s.ctx.Holds m)
    (h : exec i s = .next t) :
    t.ctx.Holds (absorbedAfter m i) ∧ t.respPort = s.respPort ++ responsesDue m i := by
  cases i with
  | init =>
    cases (exec_init s).symm.trans h
    exact ⟨initialized_holds_nil, (List.append_nil _).symm⟩
  | update data =>
    obtain ⟨c, hc⟩ := absorb_ok data s.ctx
    cases (exec_update_of_absorb hc).symm.trans h
    exact ⟨absorb_holds hm hc, (List.append_nil _).symm⟩
  | finalize =>
    cases (exec_finalize_of_holds hm).symm.trans h
    exact ⟨initialized_holds_nil, rfl⟩

/-- Settles O52: taking the command off the port leaves the context, on which the command then acts. -/
theorem everyStepFollowsTheAbsorbedMessage : Obligations.EveryStepFollowsTheAbsorbedMessage := by
  unfold Obligations.EveryStepFollowsTheAbsorbedMessage
  intro s t m hm hstep
  refine ((step_eq_next_iff s t).mp hstep).imp_right ?_
  rintro ⟨i, rest, hdecode, hexec⟩
  exact ⟨i, rest, hdecode, exec_cmdPort hexec,
    exec_follows_message (s := s.consume rest) hm hexec⟩

/-! ### Messages in chunks -/

/-- UPDATEs extend the message held by all their payloads, in order, and write nothing but the context. -/
theorem runCommands_updates_holds (cs : List (List Byte)) {s : State} {m : List Byte}
    (hm : s.ctx.Holds m) :
    ∃ c, runCommands (cs.map .update) s = .next (s.setCtx c) ∧ c.Holds (m ++ cs.flatten) := by
  induction cs generalizing s m with
  | nil => exact ⟨s.ctx, rfl, by rwa [List.flatten_nil, List.append_nil]⟩
  | cons data cs ih =>
    obtain ⟨c₁, hc₁⟩ := absorb_ok data s.ctx
    obtain ⟨c, hrun, hc⟩ := ih (s := s.setCtx c₁) (absorb_holds hm hc₁)
    refine ⟨c, ?_, by rwa [List.flatten_cons, ← List.append_assoc]⟩
    rw [List.map_cons, runCommands_cons (exec_update_of_absorb hc₁), hrun]
    rfl

theorem holds_nil_of_initialized {s : State} (h : s.ctx = Context.initialized) : s.ctx.Holds [] :=
  h ▸ initialized_holds_nil

/-- Settles O35: the initialized context holds the empty message, which the UPDATEs extend. -/
theorem contextHoldsTheAbsorbedMessage : Obligations.ContextHoldsTheAbsorbedMessage := by
  unfold Obligations.ContextHoldsTheAbsorbedMessage
  intro s cs hinit
  obtain ⟨c, hrun, hused, htail, hbits, hv⟩ :=
    runCommands_updates_holds cs (holds_nil_of_initialized hinit)
  exact ⟨_, hrun, hused, htail, hbits, hv, rfl, rfl⟩

/-- Settles O43: after the UPDATEs the context holds the whole message, whose digest FINALIZE answers. -/
theorem chunkedMessageGivesItsDigest : Obligations.ChunkedMessageGivesItsDigest := by
  unfold Obligations.ChunkedMessageGivesItsDigest
  intro s cs hinit
  obtain ⟨c, hrun, hc⟩ := runCommands_updates_holds cs (holds_nil_of_initialized hinit)
  have hfinal := exec_finalize_of_holds (s := s.setCtx c) hc
  simp only [runCommands_append, hrun]
  rw [runCommands_cons hfinal, runCommands_nil]
  rfl

/-! ### HASH -/

/-- Cutting a payload into pieces loses nothing (R96). -/
theorem flatten_pieces {size fuel : Nat} {d : List Byte} (hsize : 0 < size) (hfuel : d.length ≤ fuel) :
    (pieces size fuel d).flatten = d := by
  induction fuel generalizing d with
  | zero => exact (List.length_eq_zero_iff.mp (Nat.le_zero.mp hfuel)).symm
  | succ fuel ih =>
    rw [pieces]
    split
    case isTrue hnil => exact (List.length_eq_zero_iff.mp hnil).symm
    case isFalse hpos =>
      rw [List.flatten_cons, ih (by rw [List.length_drop]; omega), List.take_append_drop]

theorem length_le_of_mem_pieces {size fuel : Nat} {d : List Byte} :
    ∀ p ∈ pieces size fuel d, p.length ≤ size := by
  induction fuel generalizing d with
  | zero => exact List.forall_mem_nil _
  | succ fuel ih =>
    rw [pieces]
    split
    · exact List.forall_mem_nil _
    · exact List.forall_mem_cons.mpr ⟨List.length_take_le _ _, ih⟩

/-- Every command of HASH fits the port (R84, R96). -/
theorem hashCommands_wf (data : List Byte) : ∀ i ∈ hashCommands data, i.wf = true := by
  rw [hashCommands, updatesOf, List.cons_append, List.forall_mem_cons, List.forall_mem_append,
    List.forall_mem_map, List.forall_mem_singleton]
  exact ⟨rfl, fun p hp => decide_eq_true (length_le_of_mem_pieces p hp), rfl⟩

/-- INIT, a message in chunks and FINALIZE answer the message's digest from every state (R204). -/
theorem runCommands_init_updates_finalize (cs : List (List Byte)) (s : State) :
    runCommands (.init :: cs.map .update ++ [.finalize]) s =
      .next { ctx := Context.initialized, cmdPort := s.cmdPort,
              respPort := s.respPort ++ [sm3 cs.flatten] } := by
  rw [List.cons_append, runCommands_cons (exec_init s)]
  exact chunkedMessageGivesItsDigest _ cs rfl

theorem runCommands_hashCommands (data : List Byte) (s : State) :
    runCommands (hashCommands data) s =
      .next { ctx := Context.initialized, cmdPort := s.cmdPort, respPort := s.respPort ++ [sm3 data] } := by
  rw [hashCommands, updatesOf, runCommands_init_updates_finalize,
    flatten_pieces (by decide) (Nat.le_refl _)]

/-- Settles O44: both expansions are INIT, the payload in chunks and FINALIZE. -/
theorem hashAnswersTheMessageDigest : Obligations.HashAnswersTheMessageDigest := by
  unfold Obligations.HashAnswersTheMessageDigest
  intro s data
  refine ⟨hashCommands_wf data, runCommands_hashCommands data s, ?_⟩
  have hone := runCommands_init_updates_finalize [data] s
  rw [List.flatten_singleton] at hone
  exact hone.trans (runCommands_hashCommands data s).symm

/-- Settles O45: the steps run the commands of the stream in order. -/
theorem hashStreamStepsToTheDigest : Obligations.HashStreamStepsToTheDigest := by
  unfold Obligations.HashStreamStepsToTheDigest
  intro s data rest hport
  rw [runSteps_encodeScript _ s rest (hashCommands_wf data) hport, runCommands_hashCommands]
  rfl

end Sys2Proof.Proofs

/-! ## UPDATE field by field, streaming equivalence, hardware reset (R174, R175, R250) -/

namespace Sys2Proof.Proofs

open Sys2Proof Sys2Proof.Machine

/-! ### Equivalent contexts -/

theorem equiv_trans {c d e : Context} (hcd : c.Equiv d) (hde : d.Equiv e) : c.Equiv e := by
  obtain ⟨hv, hused, hbits, htail⟩ := hcd
  obtain ⟨hv', hused', hbits', htail'⟩ := hde
  exact ⟨hv.trans hv', hused.trans hused', hbits.trans hbits', htail.trans htail'⟩

theorem state_equiv_refl (s : State) : s.Equiv s := ⟨⟨rfl, rfl, rfl, rfl⟩, rfl, rfl⟩

theorem state_equiv_trans {s t u : State} (hst : s.Equiv t) (htu : t.Equiv u) : s.Equiv u := by
  obtain ⟨hctx, hcmd, hresp⟩ := hst
  obtain ⟨hctx', hcmd', hresp'⟩ := htu
  exact ⟨equiv_trans hctx hctx', hcmd.trans hcmd', hresp.trans hresp'⟩

/-- UPDATE reads nothing of a context but what equivalent contexts agree on. -/
theorem absorb_equiv {data : List Byte} {c d c' d' : Context} (h : c.Equiv d)
    (hc : absorb data c = .ok c') (hd : absorb data d = .ok d') : c'.Equiv d' := by
  obtain ⟨hv, hused, hbits, htail⟩ := h
  obtain ⟨hbits₁, hused₁, hv₁, htail₁⟩ := absorb_fields hc
  obtain ⟨hbits₂, hused₂, hv₂, htail₂⟩ := absorb_fields hd
  refine ⟨?v, ?used, ?bits, ?tail⟩
  case v => rw [hv₁, hv₂, hv, htail]
  case used => rw [hused₁, hused₂, hused]
  case bits => rw [hbits₁, hbits₂, hbits]
  case tail => rw [htail₁, htail₂, htail]

/-- Two UPDATEs in a row are one UPDATE of the concatenation, up to stale bytes (R175). -/
theorem absorb_append_equiv {x y : List Byte} {c c₁ c₂ d : Context} (h₁ : absorb x c = .ok c₁)
    (h₂ : absorb y c₁ = .ok c₂) (hd : absorb (x ++ y) c = .ok d) : c₂.Equiv d := by
  obtain ⟨hbits₁, hused₁, hv₁, htail₁⟩ := absorb_fields h₁
  obtain ⟨hbits₂, hused₂, hv₂, htail₂⟩ := absorb_fields h₂
  obtain ⟨hbits, hused, hv, htail⟩ := absorb_fields hd
  obtain ⟨hblocks, htails⟩ := blocksOf_append (c.tail ++ x) y
  rw [List.append_assoc] at hblocks htails
  refine ⟨?v, ?used, ?bits, ?tail⟩
  case v => rw [hv₂, hv₁, htail₁, hv, hblocks, foldBlocks_append]
  case used =>
    apply Fin.ext
    rw [hused₂, hused₁, hused, Fin.val_ofNat, Fin.val_ofNat, Fin.val_ofNat, List.length_append,
      Nat.mod_add_mod, Nat.add_assoc]
  case bits => rw [hbits₂, hbits₁, hbits, List.length_append, bits_add, BitVec.add_assoc]
  case tail => rw [htail₂, htail₁, htail, htails]

/-- What FINALIZE compresses does not depend on stale bytes (R180). -/
theorem foldBlocks_finalBlocks_of_equiv {c d : Context} (h : c.Equiv d) :
    foldBlocks c.v c.finalBlocks = foldBlocks d.v d.finalBlocks := by
  obtain ⟨hv, hused, hbits, htail⟩ := h
  rw [Context.finalBlocks, hv, hused, hbits, htail, Context.finalBlocks]

/-- Equivalent states stay equivalent under every command and give the same responses (R175). -/
theorem exec_equiv {s t : State} (h : s.Equiv t) (i : Instr) :
    ∃ s' t', exec i s = .next s' ∧ exec i t = .next t' ∧ s'.Equiv t' := by
  obtain ⟨hctx, hcmd, hresp⟩ := h
  cases i with
  | init => exact ⟨_, _, exec_init s, exec_init t, ⟨rfl, rfl, rfl, rfl⟩, hcmd, hresp⟩
  | update data =>
    obtain ⟨c, hc⟩ := absorb_ok data s.ctx
    obtain ⟨d, hd⟩ := absorb_ok data t.ctx
    exact ⟨_, _, exec_update_of_absorb hc, exec_update_of_absorb hd, absorb_equiv hctx hc hd, hcmd, hresp⟩
  | finalize =>
    refine ⟨_, _, exec_finalize s, exec_finalize t, ⟨rfl, rfl, rfl, rfl⟩, hcmd, ?_⟩
    rw [State.respond_respPort, State.setCtx_respPort, hresp, foldBlocks_finalBlocks_of_equiv hctx]
    rfl

/-- The streaming law: two UPDATEs and the one of their concatenation keep states equivalent (R175). -/
theorem exec_update_append_equiv {s t : State} (h : s.Equiv t) (x y : List Byte) :
    ∃ s' t', runCommands [.update x, .update y] s = .next s' ∧
      exec (.update (x ++ y)) t = .next t' ∧ s'.Equiv t' := by
  obtain ⟨hctx, hcmd, hresp⟩ := h
  obtain ⟨c₁, h₁⟩ := absorb_ok x s.ctx
  obtain ⟨c₂, h₂⟩ := absorb_ok y c₁
  obtain ⟨d, hd⟩ := absorb_ok (x ++ y) s.ctx
  obtain ⟨e, he⟩ := absorb_ok (x ++ y) t.ctx
  have hce : c₂.Equiv e := equiv_trans (absorb_append_equiv h₁ h₂ hd) (absorb_equiv hctx hd he)
  refine ⟨s.setCtx c₂, t.setCtx e, ?_, exec_update_of_absorb he, hce, hcmd, hresp⟩
  rw [runCommands_cons (exec_update_of_absorb h₁),
    runCommands_cons (exec_update_of_absorb (s := s.setCtx c₁) h₂), runCommands_nil]
  rfl

/-- Settles O36: commands act on a context through the four fields that equivalent contexts share. -/
theorem streamingEquivalence : Obligations.StreamingEquivalence := by
  unfold Obligations.StreamingEquivalence
  exact fun _ _ h => ⟨exec_update_append_equiv h, exec_equiv h⟩

/-- Settles O37, by induction on the payload: the streaming law splits off its first byte. -/
theorem byteSerialFeedingIsEquivalent : Obligations.ByteSerialFeedingIsEquivalent := by
  unfold Obligations.ByteSerialFeedingIsEquivalent
  intro s data
  induction data generalizing s with
  | nil => exact ⟨s, s, rfl, exec_update_nil s, state_equiv_refl s⟩
  | cons b data ih =>
    obtain ⟨s₁, hfirst⟩ := exec_ok (.update [b]) s
    obtain ⟨t, u₁, hrun, hrest, hequiv⟩ := ih s₁
    obtain ⟨u₂, u, htwo, hwhole, hequiv'⟩ := exec_update_append_equiv (state_equiv_refl s) [b] data
    rw [runCommands_cons hfirst, runCommands_cons hrest, runCommands_nil] at htwo
    cases htwo
    refine ⟨t, u, ?_, hwhole, state_equiv_trans hequiv hequiv'⟩
    rw [List.map_cons, runCommands_cons hfirst, hrun]

/-! ### Every byte of the buffer after an UPDATE -/

/-- The top-up stores payload bytes from `USED` to the end of the buffer, when there is something to top
up (R174). -/
theorem get_toppedUp {data : List Byte} {c : Context} (h : 64 ≤ c.used.val + data.length) (i : Nat) :
    (toppedUp data c).get i =
      if 0 < c.used.val ∧ c.used.val ≤ i ∧ i < 64 then data.getD (i - c.used.val) 0 else c.buf.get i := by
  have hused := c.used.isLt
  unfold toppedUp
  split
  case isTrue hzero => rw [if_neg (by omega)]
  case isFalse hpos =>
    have hlen : (data.take (64 - c.used.val)).length = 64 - c.used.val := List.length_take_of_le (by omega)
    rw [get_writeRun, hlen]
    by_cases hi : c.used.val ≤ i ∧ i < 64
    · rw [if_pos (by omega), if_pos (by omega), List.getD_eq_getElem?_getD,
        List.getElem?_take_of_lt (by omega), List.getD_eq_getElem?_getD]
    · rw [if_neg (by omega), if_neg (by omega)]

/-- The tail of the buffered bytes and a payload that completes a block is the end of the payload. -/
theorem getD_tailOf_append {t data : List Byte} (hshort : t.length < 64) (hfull : 64 ≤ t.length + data.length)
    (i : Nat) :
    (tailOf (t ++ data)).getD i 0 = data.getD (data.length - (t.length + data.length) % 64 + i) 0 := by
  have hidx : 64 * ((t.length + data.length) / 64) + i
      = t.length + (data.length - (t.length + data.length) % 64 + i) := by omega
  rw [tailOf, List.length_append, List.getD_eq_getElem?_getD, List.getElem?_drop, hidx,
    List.getElem?_append_right (Nat.le_add_right _ _), Nat.add_sub_cancel_left, List.getD_eq_getElem?_getD]

/-- Settles O34: the fields are those of `absorb_fields`, and the buffer is what the two cases of UPDATE
write. -/
theorem updateCaseTableAndFrame : Obligations.UpdateCaseTableAndFrame := by
  unfold Obligations.UpdateCaseTableAndFrame
  intro s data
  obtain ⟨c, hc⟩ := absorb_ok data s.ctx
  obtain ⟨hbits, hused, hv, -⟩ := absorb_fields hc
  have hlen : (s.ctx.tail ++ data).length = s.ctx.used.val + data.length := by
    rw [List.length_append, length_tail]
  refine ⟨_, exec_update_of_absorb hc, rfl, rfl, hbits, ?used, hv, ?blocks, fun i => ?byte⟩
  case used => rw [State.setCtx_ctx, hused, Fin.val_ofNat]
  case blocks => rw [length_blocksOf, hlen]
  case byte =>
    rw [State.setCtx_ctx]
    rcases Nat.lt_or_ge (s.ctx.used.val + data.length) 64 with hshort | hfull
    · cases (absorb_of_short data s.ctx hshort).symm.trans hc
      rw [if_pos hshort, get_writeRun]
    · cases (absorb_of_full data s.ctx hfull).symm.trans hc
      have htail := getD_tailOf_append (t := s.ctx.tail) (data := data)
      simp only [length_tail] at htail
      simp only [if_neg hfull.not_gt, get_writeRun, get_toppedUp hfull, length_tailOf, hlen, Nat.zero_le,
        true_and, Nat.zero_add, Nat.sub_zero, htail s.ctx.used.isLt hfull]

/-! ### Hardware reset -/

/-- Settles O32: INIT writes the context of reset, and the ports are then emptied. -/
theorem hardwareResetIsInitThatCancels : Obligations.HardwareResetIsInitThatCancels := by
  unfold Obligations.HardwareResetIsInitThatCancels
  intro s t h
  cases (exec_init s).symm.trans h
  exact ⟨rfl, rfl⟩

end Sys2Proof.Proofs

/-! ## Several cores side by side (R64, R230, R250) -/

namespace Sys2Proof.Proofs

open Sys2Proof Sys2Proof.Machine

/-! ### Reset and delivery -/

/-- Settles O50: a system is reset to copies of the reset state, and delivery changes one entry of the
list. -/
theorem systemResetsEveryInstance : Obligations.SystemResetsEveryInstance := by
  unfold Obligations.SystemResetsEveryInstance
  refine ⟨List.length_replicate, Nat.succ_pos _, fun s hs => List.eq_of_mem_replicate hs,
    fun k bs y => ⟨List.length_modify _ _ _, ?self, fun i hi => ?other⟩⟩
  case self => exact List.getElem?_modify_eq _ _ _
  case other => exact List.getElem?_modify_ne _ _ hi.symm

/-! ### One step of a system -/

theorem stepAt_of_none {k : Nat} {y : System} (h : y.insts[k]? = none) : y.stepAt k = .next y := by
  rw [System.stepAt, h]

theorem stepAt_of_next {k : Nat} {y : System} {s s' : State} (h : y.insts[k]? = some s)
    (hs : step s = .next s') : y.stepAt k = .next { insts := y.insts.set k s' } := by
  simp only [System.stepAt, h, hs]

theorem stepAt_of_refused {k : Nat} {y : System} {s : State} {r : Refusal} (h : y.insts[k]? = some s)
    (hs : step s = .refused r) : y.stepAt k = .refused r := by
  simp only [System.stepAt, h, hs]

theorem getElem?_set_same {l : List State} {k : Nat} {s : State} (h : l[k]? = some s) (s' : State) :
    (l.set k s')[k]? = some s' := by
  obtain ⟨hk, -⟩ := List.getElem?_eq_some_iff.mp h
  exact List.getElem?_set_self hk

theorem stepAt_length {k : Nat} {y y' : System} (h : y.stepAt k = .next y') :
    y'.insts.length = y.insts.length := by
  obtain ⟨-, rfl⟩ | ⟨s, s', -, -, rfl⟩ := System.stepAt_cases h
  · rfl
  · exact List.length_set

theorem stepAt_self {k : Nat} {y y' : System} {s : State} (h : y.stepAt k = .next y')
    (hs : y.insts[k]? = some s) : ∃ s', step s = .next s' ∧ y'.insts[k]? = some s' := by
  obtain ⟨hnone, -⟩ | ⟨s₁, s', hs₁, hstep, rfl⟩ := System.stepAt_cases h
  · rw [hnone] at hs
    cases hs
  · cases hs₁.symm.trans hs
    exact ⟨s', hstep, getElem?_set_same hs s'⟩

theorem stepAt_other {k i : Nat} {y y' : System} (h : y.stepAt k = .next y') (hi : i ≠ k) :
    y'.insts[i]? = y.insts[i]? := by
  obtain ⟨-, rfl⟩ | ⟨s, s', -, -, rfl⟩ := System.stepAt_cases h
  · rfl
  · exact List.getElem?_set_ne hi.symm

/-- Settles O51: the step of the entry named is put in its place in the list. -/
theorem systemStepMovesOneInstance : Obligations.SystemStepMovesOneInstance := by
  unfold Obligations.SystemStepMovesOneInstance
  intro k y
  refine ⟨fun s hs => ⟨fun s' hstep => ?completes, fun r => stepAt_of_refused hs⟩, stepAt_of_none,
    fun y' h => ⟨fun s => stepAt_self h, stepAt_length h, fun i => stepAt_other h⟩⟩
  case completes => exact ⟨_, stepAt_of_next hs hstep, getElem?_set_same hs s'⟩

/-! ### Interleavings -/

theorem runSteps_succ {s t : State} (h : step s = .next t) (n : Nat) :
    runSteps (n + 1) s = runSteps n t := by
  rw [runSteps, h]

theorem step_of_runSteps_succ {n : Nat} {s t : State} (h : runSteps (n + 1) s = .next t) :
    ∃ s', step s = .next s' := by
  rw [runSteps] at h
  cases hs : step s with
  | next s' => exact ⟨s', rfl⟩
  | fault f => rw [hs] at h; cases h
  | refused r => rw [hs] at h; cases h

theorem system_run_cons {k : Nat} {y y₁ : System} (h : y.stepAt k = .next y₁) (ks : List Nat) :
    System.run (k :: ks) y = System.run ks y₁ := by
  rw [System.run, h]

theorem stepAt_of_system_run_cons {k : Nat} {ks : List Nat} {y y' : System}
    (h : System.run (k :: ks) y = .next y') : ∃ y₁, y.stepAt k = .next y₁ := by
  rw [System.run] at h
  cases hs : y.stepAt k with
  | next y₁ => exact ⟨y₁, rfl⟩
  | fault f => rw [hs] at h; cases h
  | refused r => rw [hs] at h; cases h

/-- The key of both directions: after a step of core `k`, each core has the steps of its own that the rest
of the interleaving gives it still before it, and no others. -/
theorem stepAt_leaves_own_steps {k j : Nat} {y y₁ : System} {s : State} (h : y.stepAt k = .next y₁)
    (hs : y.insts[j]? = some s) :
    ∃ s₁, y₁.insts[j]? = some s₁ ∧ ∀ ks : List Nat, runSteps ((k :: ks).count j) s = runSteps (ks.count j) s₁ := by
  by_cases hj : j = k
  · subst hj
    obtain ⟨s₁, hstep, hs₁⟩ := stepAt_self h hs
    exact ⟨s₁, hs₁, fun ks => by rw [List.count_cons_self, runSteps_succ hstep]⟩
  · exact ⟨s, (stepAt_other h hj).trans hs, fun ks => by rw [List.count_cons_of_ne (Ne.symm hj)]⟩

/-- Each core of an interleaving gets what it gets running alone for as many steps (R64). -/
theorem system_run_eq_next {ks : List Nat} {y y' : System} (h : System.run ks y = .next y') :
    y'.insts.length = y.insts.length ∧
      ∀ (k : Nat) (s : State), y.insts[k]? = some s →
        ∃ s', y'.insts[k]? = some s' ∧ runSteps (ks.count k) s = .next s' := by
  induction ks generalizing y with
  | nil =>
    cases h
    exact ⟨rfl, fun k s hs => ⟨s, hs, rfl⟩⟩
  | cons j ks ih =>
    obtain ⟨y₁, hstep⟩ := stepAt_of_system_run_cons h
    obtain ⟨hlen, halone⟩ := ih ((system_run_cons hstep ks).symm.trans h)
    refine ⟨hlen.trans (stepAt_length hstep), fun k s hs => ?_⟩
    obtain ⟨s₁, hs₁, hown⟩ := stepAt_leaves_own_steps hstep hs
    obtain ⟨s', hs', hrun⟩ := halone k s₁ hs₁
    exact ⟨s', hs', (hown ks).trans hrun⟩

/-- A core that completes its steps alone completes the next of them in the system. -/
theorem exists_stepAt {k : Nat} {ks : List Nat} {y : System}
    (h : ∀ s, y.insts[k]? = some s → ∃ s', runSteps ((k :: ks).count k) s = .next s') :
    ∃ y₁, y.stepAt k = .next y₁ := by
  cases hk : y.insts[k]? with
  | none => exact ⟨y, stepAt_of_none hk⟩
  | some s =>
    obtain ⟨s', hrun⟩ := h s hk
    rw [List.count_cons_self] at hrun
    obtain ⟨s₁, hstep⟩ := step_of_runSteps_succ hrun
    exact ⟨_, stepAt_of_next hk hstep⟩

/-- An interleaving completes when each core alone does (R64). -/
theorem exists_system_run {ks : List Nat} {y : System}
    (h : ∀ (k : Nat) (s : State), y.insts[k]? = some s → ∃ s', runSteps (ks.count k) s = .next s') :
    ∃ y', System.run ks y = .next y' := by
  induction ks generalizing y with
  | nil => exact ⟨y, rfl⟩
  | cons j ks ih =>
    obtain ⟨y₁, hstep⟩ := exists_stepAt (h j)
    rw [system_run_cons hstep]
    refine ih fun k s₁ hs₁ => ?_
    have hk : k < y.insts.length := by
      rw [← stepAt_length hstep]
      exact (List.getElem?_eq_some_iff.mp hs₁).1
    have hs : y.insts[k]? = some y.insts[k] := List.getElem?_eq_getElem hk
    obtain ⟨s₁', hs₁', hown⟩ := stepAt_leaves_own_steps hstep hs
    cases hs₁.symm.trans hs₁'
    exact (h k _ hs).imp fun _ hrun => (hown ks).symm.trans hrun

/-- Settles O49, by induction on the interleaving in both directions. -/
theorem instancesAreIndependent : Obligations.InstancesAreIndependent := by
  unfold Obligations.InstancesAreIndependent
  exact ⟨fun _ _ _ => system_run_eq_next, fun _ _ => exists_system_run⟩

end Sys2Proof.Proofs

/-! ## Word primitives beside their definitions (R52 to R54, R113, R117 to R119) -/

namespace Sys2Proof.Proofs

open Sys2Proof Sys2Proof.Machine

/-! ### Choose -/

theorem or_eq_xor_of_and_eq_zero {x y : Word} (h : x &&& y = 0) : x ||| y = x ^^^ y := by
  apply BitVec.eq_of_getLsbD_eq
  intro i _
  have hbit : (x.getLsbD i && y.getLsbD i) = false := by
    rw [← BitVec.getLsbD_and, h]
    exact BitVec.getLsbD_zero
  rw [BitVec.getLsbD_or, BitVec.getLsbD_xor]
  revert hbit
  cases x.getLsbD i <;> cases y.getLsbD i <;> decide

/-- No bit is both selected and not selected by `x`. -/
theorem choose_terms_disjoint (x y z : Word) : (x &&& y) &&& (~~~x &&& z) = 0 := by
  calc (x &&& y) &&& (~~~x &&& z)
      = (x &&& ~~~x) &&& (y &&& z) := by ac_rfl
    _ = 0#32 &&& (y &&& z) := by rw [BitVec.and_not_self]; rfl
    _ = 0 := BitVec.zero_and

/-- Settles O17: on disjoint words or, xor and addition agree. -/
theorem chooseTermsAreDisjoint : Obligations.ChooseTermsAreDisjoint := by
  unfold Obligations.ChooseTermsAreDisjoint
  intro j x y z hj
  have hdisjoint := choose_terms_disjoint x y z
  rw [gg_of_late hj]
  exact ⟨or_eq_xor_of_and_eq_zero hdisjoint, (BitVec.add_eq_or_of_and_eq_zero _ _ hdisjoint).symm⟩

/-! ### The round constants -/

/-- Two rotations in a row are one by the sum of the amounts (R111). -/
theorem rotl_rotl (x : Word) {m n : Nat} (hm : m < 32) (hn : n < 32) :
    rotl (rotl x m) n = rotl x ((m + n) % 32) := by
  apply BitVec.eq_of_getLsbD_eq
  intro i hi
  have hmod (k : Nat) : k % 32 < 32 := Nat.mod_lt k (by decide)
  have hsrc : ((i + (32 - n)) % 32 + (32 - m)) % 32 = (i + (32 - (m + n) % 32)) % 32 := by omega
  rw [getLsbD_rotl _ hn hi, getLsbD_rotl _ hm (hmod _), getLsbD_rotl _ (hmod _) hi, hsrc]

theorem baseConst_of_early {j : Nat} (h : j < 16) : baseConst j = Config.tLo := if_pos h

theorem baseConst_of_late {j : Nat} (h : 16 ≤ j) : baseConst j = Config.tHi := if_neg h.not_gt

/-- Only the switch to the second base constant breaks the chain of rotations (R118, R119). -/
theorem roundConst_succ {j : Nat} (h : j ≠ 15) : roundConst (j + 1) = rotl (roundConst j) 1 := by
  have hbase : baseConst (j + 1) = baseConst j := by
    rcases Nat.lt_or_ge j 16 with hlt | hge
    · rw [baseConst_of_early hlt, baseConst_of_early (by omega)]
    · rw [baseConst_of_late hge, baseConst_of_late (by omega)]
  rw [roundConst, roundConst, hbase, rotl_rotl _ (Nat.mod_lt j (by decide)) (by decide), Nat.mod_add_mod]

/-- The rotation amounts have period 32 (R119). -/
theorem roundConst_add_32 {j : Nat} (h : 16 ≤ j) : roundConst (j + 32) = roundConst j := by
  rw [roundConst, roundConst, baseConst_of_late h, baseConst_of_late (by omega), Nat.add_mod_right]

/-- Settles O18: the recurrences hold for all round indices, and the four entries are computed. -/
theorem roundConstantsFollowByOneRotation : Obligations.RoundConstantsFollowByOneRotation := by
  unfold Obligations.RoundConstantsFollowByOneRotation
  exact ⟨fun _ _ h => roundConst_succ h, fun _ h _ => roundConst_add_32 h, by decide⟩

/-! ### Byte order -/

theorem toNat_append {m n : Nat} (x : BitVec m) (y : BitVec n) :
    (x ++ y).toNat = x.toNat * 2 ^ n + y.toNat := by
  rw [BitVec.toNat_append, ← Nat.shiftLeft_add_eq_or_of_lt y.isLt, Nat.shiftLeft_eq]

theorem toNat_be32 (b0 b1 b2 b3 : Byte) :
    (be32 b0 b1 b2 b3).toNat = b0.toNat * 2 ^ 24 + b1.toNat * 2 ^ 16 + b2.toNat * 2 ^ 8 + b3.toNat := by
  rw [be32, toNat_append, toNat_append, toNat_append]
  ring

/-- Byte `k` of a dword counts from the most significant end (R54). -/
theorem getD_be64bytes (d : DWord) {k : Nat} (hk : k < 8) :
    (be64bytes d).getD k 0 = d.extractLsb' (56 - 8 * k) 8 := by
  interval_cases k <;> rfl

/-- A byte taken out of a longer value is one of its base-256 digits. -/
theorem toNat_extract_byte {w : Nat} (x : BitVec w) (p : Nat) :
    (x.extractLsb' p 8).toNat = x.toNat / 2 ^ p % 256 := by
  rw [BitVec.extractLsb'_toNat, Nat.shiftRight_eq_div_pow]

/-- Settles O20: every byte is the digit at its place, and the bytes of a word make it up again. -/
theorem byteOrderIsBigEndian : Obligations.ByteOrderIsBigEndian := by
  unfold Obligations.ByteOrderIsBigEndian
  refine ⟨fun b0 b1 b2 b3 => ⟨toNat_be32 b0 b1 b2 b3, be32bytes_be32 b0 b1 b2 b3⟩,
    fun w => ⟨_, _, _, _, rfl, be32_be32bytes w, fun k hk => ?word⟩,
    fun d => ⟨length_be64bytes d, fun k hk => ?dword⟩⟩
  case word => rw [getD_be32bytes w hk, toNat_extract_byte]
  case dword => rw [getD_be64bytes d hk, toNat_extract_byte]

end Sys2Proof.Proofs

/-! ## The rounds of CF and the windowed expansion (R145 to R147, R149) -/

namespace Sys2Proof.Proofs

open Sys2Proof Sys2Proof.Machine

/-! ### The rounds -/

/-- The rotated constant of each round with its amount written out (R146, R147). -/
theorem roundConst_specialised {j : Nat} (h : j < 64) :
    roundConst j =
      if j < 16 then rotl Config.tLo j else if j < 32 then rotl Config.tHi j else rotl Config.tHi (j - 32) := by
  unfold roundConst
  split
  case isTrue hearly => rw [baseConst_of_early hearly, Nat.mod_eq_of_lt (by omega)]
  case isFalse hlate =>
    rw [baseConst_of_late (Nat.le_of_not_lt hlate)]
    split
    case isTrue hlt => rw [Nat.mod_eq_of_lt hlt]
    case isFalse hge =>
      have hmod : j % 32 = j - 32 := by omega
      rw [hmod]

theorem cfRounds_zero (w w1 : List Word) (r : Working) : cfRounds 0 w w1 r = r := rfl

theorem cfRounds_succ (n : Nat) (w w1 : List Word) (r : Working) :
    cfRounds (n + 1) w w1 r = cfRound n (wordAt w n) (wordAt w1 n) (cfRounds n w w1 r) := by
  rw [cfRounds, List.range_succ, List.foldl_append]
  rfl

/-- Settles O25: the intermediate words of the round are `SS1`, `SS2`, `TT1` and `TT2`. -/
theorem roundsSpecialised : Obligations.RoundsSpecialised := by
  unfold Obligations.RoundsSpecialised
  refine ⟨fun j wj w1j r hj =>
    ⟨ss1 j r, ss2 j r, tt1 j w1j r, tt2 j wj r, ?ss1, rfl, rfl, rfl, rfl⟩, cfRounds_zero, cfRounds_succ⟩
  case ss1 =>
    rw [ss1, roundConst_specialised hj]
    rfl

/-! ### The 16-word window -/

theorem wordAt_drop (w : List Word) (n i : Nat) : wordAt (w.drop n) i = wordAt w (n + i) := by
  rw [wordAt, wordAt, List.getD_eq_getElem?_getD, List.getElem?_drop, List.getD_eq_getElem?_getD]

/-- The recurrence looks at most 16 words back, so that the window is enough (R142, R149). -/
theorem expandWord_drop (w : List Word) (n : Nat) : expandWord (w.drop n) 16 = expandWord w (n + 16) := by
  simp only [expandWord, wordAt_drop, Nat.add_sub_assoc (show 16 ≤ 16 by decide) n,
    Nat.add_sub_assoc (show 9 ≤ 16 by decide) n, Nat.add_sub_assoc (show 3 ≤ 16 by decide) n,
    Nat.add_sub_assoc (show 13 ≤ 16 by decide) n, Nat.add_sub_assoc (show 6 ≤ 16 by decide) n]

/-- A word once computed stays as it is. -/
theorem wordAt_expandSteps_of_le (w : List Word) {n m j : Nat} (hnm : n ≤ m) (hj : j < w.length + n) :
    wordAt (expandSteps w m) j = wordAt (expandSteps w n) j := by
  induction m, hnm using Nat.le_induction with
  | base => rfl
  | succ m hnm ih => rw [expandSteps_succ, wordAt_append_of_lt _ _ (by rw [length_expandSteps]; omega), ih]

/-- The schedule agrees with any number of expansion steps on the words that both have. -/
theorem wordAt_schedule_eq_expandSteps (b : Block) {n j : Nat} (hn : j < 16 + n) (h : j < 68) :
    wordAt (schedule b) j = wordAt (expandSteps (cfLoad b) n) j := by
  have hlen := length_cfLoad b
  rw [schedule_eq_expandSteps]
  rcases Nat.le_total n 52 with hle | hge
  · exact wordAt_expandSteps_of_le _ hle (by omega)
  · exact (wordAt_expandSteps_of_le _ hge (by omega)).symm

theorem windowRound_eq {w : List Word} {n : Nat} (hw : w.length = n + 16) (r : Working) :
    windowRound (w.drop n, r) n =
      ((w ++ [expandWord w (n + 16)]).drop (n + 1),
        cfRound n (wordAt w n) (wordAt w n ^^^ wordAt w (n + 4)) r) := by
  simp only [windowRound, List.drop_drop, expandWord_drop, wordAt_drop, Nat.add_zero,
    List.drop_append_of_le_length (show n + 1 ≤ w.length by omega)]

/-- After `n` rounds the window holds the last 16 of the words expanded so far, and the working variables
are those of `n` rounds over the schedule. -/
theorem foldl_windowRound (b : Block) (r : Working) {n : Nat} (hn : n ≤ 64) :
    (List.range n).foldl windowRound (cfLoad b, r) =
      ((expandSteps (cfLoad b) n).drop n, cfRounds n (schedule b) (cfW1 (schedule b)) r) := by
  induction n with
  | zero => rfl
  | succ n ih =>
    have hlen : (expandSteps (cfLoad b) n).length = n + 16 := by
      rw [length_expandSteps, length_cfLoad, Nat.add_comm]
    rw [List.range_succ, List.foldl_append, ih (by omega), List.foldl_cons, List.foldl_nil,
      windowRound_eq hlen, expandSteps_succ, cfRounds_succ, wordAt_cfW1 _ (by omega),
      wordAt_schedule_eq_expandSteps b (n := n) (j := n) (by omega) (by omega),
      wordAt_schedule_eq_expandSteps b (n := n) (j := n + 4) (by omega) (by omega), Nat.add_comm n 16]

/-- Settles O27: the two run the same 64 rounds. -/
theorem windowedCompressionAgrees : Obligations.WindowedCompressionAgrees := by
  unfold Obligations.WindowedCompressionAgrees
  intro x b
  rw [compressWindow, foldl_windowRound b (cfInit x) (Nat.le_refl 64), compress_eq_cfFeed]

end Sys2Proof.Proofs

/-! ## The buses (R93, R94) -/

namespace Sys2Proof.Proofs

open Sys2Proof Sys2Proof.Machine

/-- A word taken out of a bus is its four bytes. -/
theorem extract_word_eq_be32 {w : Nat} (x : BitVec w) (p : Nat) :
    x.extractLsb' p 32 =
      be32 (x.extractLsb' (p + 24) 8) (x.extractLsb' (p + 16) 8) (x.extractLsb' (p + 8) 8)
        (x.extractLsb' p 8) := by
  rw [be32, BitVec.extractLsb'_append_extractLsb'_eq_extractLsb' (by rfl : p + 24 = p + 16 + 8),
    BitVec.extractLsb'_append_extractLsb'_eq_extractLsb' (by rfl : p + 16 = p + 8 + 8),
    BitVec.extractLsb'_append_extractLsb'_eq_extractLsb' rfl]

/-- Word `i` of a packed byte sequence is made of bytes `4i` to `4i + 3` (R90, R94). -/
theorem extract_word_packBytes {w : Nat} (bs : List Byte) (hw : w = 8 * bs.length) {i : Nat}
    (hi : 4 * i + 4 ≤ bs.length) :
    (BitVec.ofNat w (packBytes bs)).extractLsb' (8 * (bs.length - 4 * i - 4)) 32 =
      be32 (bs.getD (4 * i) 0) (bs.getD (4 * i + 1) 0) (bs.getD (4 * i + 2) 0) (bs.getD (4 * i + 3) 0) := by
  have hbyte {k p : Nat} (hk : k < bs.length) (hp : p = 8 * (bs.length - 1 - k)) :
      (BitVec.ofNat w (packBytes bs)).extractLsb' p 8 = bs.getD k 0 :=
    hp ▸ extractLsb'_packBytes bs hw hk
  rw [extract_word_eq_be32, hbyte (k := 4 * i) (by omega) (by omega),
    hbyte (k := 4 * i + 1) (by omega) (by omega), hbyte (k := 4 * i + 2) (by omega) (by omega),
    hbyte (k := 4 * i + 3) (by omega) (by omega)]

/-! ### The block bus -/

theorem extract_byte_blockBus {b : Block} (hb : b.length = 64) {k : Nat} (hk : k < 64) :
    (blockBus b).extractLsb' (504 - 8 * k) 8 = b.getD k 0 := by
  have hpos : 504 - 8 * k = 8 * (b.length - 1 - k) := by omega
  rw [hpos]
  exact extractLsb'_packBytes b (by omega) (by omega)

theorem extract_word_blockBus {b : Block} (hb : b.length = 64) {i : Nat} (hi : i < 16) :
    (blockBus b).extractLsb' (480 - 32 * i) 32 = wordAt (schedule b) i := by
  have hpos : 480 - 32 * i = 8 * (b.length - 4 * i - 4) := by omega
  rw [hpos, wordAt_schedule_of_lt b hi, wordAt_cfLoad b hi]
  exact extract_word_packBytes b (by omega) (by omega)

/-! ### The state bus and the digest bus -/

theorem extract_word_digestBus (x : Chain) {i : Nat} (hi : i < 8) :
    (digestBus (encodeDigest x)).extractLsb' (224 - 32 * i) 32 = wordAt x.toList i := by
  have hlen := length_encodeDigest x
  have hpos : 224 - 32 * i = 8 * ((encodeDigest x).length - 4 * i - 4) := by omega
  have hbyte {k : Nat} (hk : k < 4) :
      (encodeDigest x).getD (4 * i + k) 0 = (wordAt x.toList i).extractLsb' (24 - 8 * k) 8 :=
    getD_flatMap_be32bytes x.toList i hk
  rw [hpos, digestBus, extract_word_packBytes _ (by omega) (by omega), ← Nat.add_zero (4 * i),
    hbyte (k := 0) (by decide), hbyte (k := 1) (by decide), hbyte (k := 2) (by decide), hbyte (k := 3) (by decide)]
  exact be32_be32bytes _

theorem extract_last_word_append {m : Nat} (hi : BitVec m) (lo : Word) : (hi ++ lo).extractLsb' 0 32 = lo :=
  BitVec.extractLsb'_append_eq_right

/-- Above a word appended on the right a bus keeps its words. -/
theorem extract_word_append {m : Nat} (hi : BitVec m) (lo : Word) (p : Nat) :
    (hi ++ lo).extractLsb' (p + 32) 32 = hi.extractLsb' p 32 := by
  rw [BitVec.extractLsb'_append_eq_of_le (Nat.le_add_left _ _), Nat.add_sub_cancel]

theorem extract_word_stateBus (x : Chain) {i : Nat} (hi : i < 8) :
    (stateBus x).extractLsb' (224 - 32 * i) 32 = wordAt x.toList i := by
  interval_cases i <;>
    simp [stateBus, wordAt, Chain.toList, extract_word_append, extract_last_word_append]

/-- Buses of whole words are equal when their words are. -/
theorem bus_eq_of_words {n : Nat} {x y : BitVec (32 * n)}
    (h : ∀ i, i < n → x.extractLsb' (32 * i) 32 = y.extractLsb' (32 * i) 32) : x = y := by
  apply BitVec.eq_of_getLsbD_eq
  intro k hk
  have hword := congrArg (fun v => v.getLsbD (k % 32)) (h (k / 32) (by omega))
  have hbit : 32 * (k / 32) + k % 32 = k := Nat.div_add_mod k 32
  have hlt : k % 32 < 32 := Nat.mod_lt k (by decide)
  simpa only [BitVec.getLsbD_extractLsb', hbit, decide_eq_true hlt, Bool.true_and] using hword

theorem digestBus_encodeDigest (x : Chain) : digestBus (encodeDigest x) = stateBus x := by
  refine bus_eq_of_words (n := 8) fun i hi => ?_
  have hpos : 32 * i = 224 - 32 * (7 - i) := by omega
  rw [hpos, extract_word_digestBus x (by omega), extract_word_stateBus x (by omega)]

/-- Settles O29: both buses hold the words of the state, and the block bus those that LOAD reads. -/
theorem encoderIsWiringOnTheBuses : Obligations.EncoderIsWiringOnTheBuses := by
  unfold Obligations.EncoderIsWiringOnTheBuses
  exact ⟨fun x => ⟨digestBus_encodeDigest x, fun _ => extract_word_stateBus x⟩,
    fun _ hb => ⟨fun _ => extract_byte_blockBus hb, fun _ => extract_word_blockBus hb⟩⟩

end Sys2Proof.Proofs
